-- ==== Sys2Proof/Word.lean ====
section
/-! DEFINITION. The values of the machine. Every word, accumulator value and I/O value is a mathematical integer with
no width and no wrap-around (00_scope.md R11), so it is an `Int`; it has one zero (10_state.md R25). An address names
exactly one whole word (20_memory.md R50), and addresses, opcodes and operands are `Nat`. -/

namespace Sys2Proof

/-- One line of program text, as its characters (70_reset_and_hazards.md R241). -/
abbrev Line := List Char

/-- The word-format tag (10_state.md R22, 00_scope.md R2): one for each loaded program. -/
inductive Format where
  | old
  | new
  deriving DecidableEq, Repr

end Sys2Proof
end

