-- ==== Sys2Proof/Config.lean ====
section
/-! DEFINITION. What is fixed for a run from outside the core: the record of a format's constants, the loader's
parameters, and the free value of the I/O port. The numbers themselves stand in Machine/Constants.lean. -/

namespace Sys2Proof

/-- The constants a word format fixes (00_scope.md R7). -/
structure FormatConstants where
  /-- `TEXTWIDTH`: digits per line of program text. -/
  textWidth : Nat
  /-- `MAXMAG`: the largest magnitude of a word. -/
  maxMag : Nat
  /-- `OPDIV`: the divisor that splits opcode from operand. -/
  opDiv : Nat
  deriving DecidableEq, Repr

/-- The loader's parameters. `capacity` is `CAPACITY` (00_scope.md R6) and `terminators` is `TERMINATORS`, which the
spec leaves open (00_scope.md R9, 92_eei_decisions.md D16). `whitespace` lists the characters that trimming removes:
70_reset_and_hazards.md R241 does not name them. DESIGN CHOICE: they are a parameter, which is safe (log entry 11). -/
structure LoaderConfig where
  capacity : Nat
  terminators : List Line
  whitespace : List Char
  deriving DecidableEq, Repr

/-- What the I/O port does at one of its turns while a READ is pending (41_io.md R122): it answers with an integer,
answers that the input was malformed, or does not answer yet. -/
inductive PortEvent where
  | value (v : Int)
  | malformed
  | silent
  deriving DecidableEq, Repr, Inhabited

/-- FREE VALUE (log entry 3): what the port does at its n-th free turn. "The input answer is a free draw"
(41_io.md R122): nothing constrains it. -/
opaque Config.portEvent : Nat → PortEvent

end Sys2Proof
end

