-- ==== Sys2Proof/Machine/Constants.lean ====
section
/-! DEFINITION. The spec's numbers, in one place (91_not_in_source.md N15): the constants of each word format, the
default capacity, and the domain of a format. -/

namespace Sys2Proof

/-- The table of 00_scope.md R7. -/
def Format.constants : Format → FormatConstants
  | .old => { textWidth := 4, maxMag := 9999, opDiv := 100 }
  | .new => { textWidth := 6, maxMag := 99999, opDiv := 1000 }

/-- `TEXTWIDTH(fmt)` of 00_scope.md R7. -/
def Format.textWidth (fmt : Format) : Nat := fmt.constants.textWidth

/-- `MAXMAG(fmt)` of 00_scope.md R7. -/
def Format.maxMag (fmt : Format) : Nat := fmt.constants.maxMag

/-- `OPDIV(fmt)` of 00_scope.md R7. -/
def Format.opDiv (fmt : Format) : Nat := fmt.constants.opDiv

/-- `InDomain(v, fmt)` of 00_scope.md R12, `-MAXMAG(fmt) <= v <= MAXMAG(fmt)`: the legal values of a word and of the
accumulator (R7). -/
def inDomain (fmt : Format) (v : Int) : Bool := decide (-(fmt.maxMag : Int) ≤ v) && decide (v ≤ fmt.maxMag)

/-- The default of `CAPACITY` (00_scope.md R6). -/
def defaultCapacity : Nat := 250

end Sys2Proof
end

