-- ==== Sys2Proof/Syntax.lean ====
section
/-! DEFINITION. The instructions: one constructor per row of spec/opcode_table.json. -/

namespace Sys2Proof

/-- The closed set of twelve instructions (30_encoding.md R77). Each has exactly one operand, a memory address
(30_encoding.md R76). -/
inductive Instr where
  | read (a : Nat)
  | write (a : Nat)
  | load (a : Nat)
  | store (a : Nat)
  | add (a : Nat)
  | subtract (a : Nat)
  | divide (a : Nat)
  | multiply (a : Nat)
  | branch (a : Nat)
  | branchNeg (a : Nat)
  | branchZero (a : Nat)
  | halt (a : Nat)
  deriving DecidableEq, Repr

/-- What the decoder reads from a word: an instruction, or an opcode that spells none, named with its operand
(30_encoding.md R78). -/
inductive Decoded where
  | instr (i : Instr)
  | undefinedOpcode (opcode operand : Nat)
  deriving DecidableEq, Repr

/-- The address an instruction carries. -/
def Instr.operand : Instr → Nat
  | .read a => a
  | .write a => a
  | .load a => a
  | .store a => a
  | .add a => a
  | .subtract a => a
  | .divide a => a
  | .multiply a => a
  | .branch a => a
  | .branchNeg a => a
  | .branchZero a => a
  | .halt a => a

end Sys2Proof
end

