-- ==== Sys2Proof/WellFormed.lean ====
section
/-! DEFINITION. Which instructions a format can spell. -/

namespace Sys2Proof

/-- An instruction is well formed under a format when its operand fits the operand field, `0 .. OPDIV(fmt)-1`
(30_encoding.md R75, 20_memory.md R65). Being below `CAPACITY` is no part of it: the core checks that when the
instruction runs (30_encoding.md R74). -/
def Instr.wf (fmt : Format) (i : Instr) : Bool := decide (i.operand < fmt.opDiv)

end Sys2Proof
end

