-- ==== Sys2Proof/Decode.lean ====
section
/-! DEFINITION. The decoder (30_encoding.md R70-R79) and, after it, the encoder (R82). -/

namespace Sys2Proof

/-- The decoder of 30_encoding.md R73: opcode and operand of any integer. The sign is no part of either. -/
def decode (fmt : Format) (w : Int) : Nat × Nat := (w.natAbs / fmt.opDiv, w.natAbs % fmt.opDiv)

/-- The opcode map (30_encoding.md R77). Any other opcode spells no instruction (R78). -/
def instrOfFields (opcode a : Nat) : Decoded :=
  match opcode with
  | 10 => .instr (.read a)
  | 11 => .instr (.write a)
  | 20 => .instr (.load a)
  | 21 => .instr (.store a)
  | 30 => .instr (.add a)
  | 31 => .instr (.subtract a)
  | 32 => .instr (.divide a)
  | 33 => .instr (.multiply a)
  | 40 => .instr (.branch a)
  | 41 => .instr (.branchNeg a)
  | 42 => .instr (.branchZero a)
  | 43 => .instr (.halt a)
  | _ => .undefinedOpcode opcode a

/-- The instruction a word stands for under a format, or the undefined opcode it holds. Total: the decoder has
"No failure modes" (30_encoding.md R73). -/
def decodeInstr (fmt : Format) (w : Int) : Decoded := instrOfFields (decode fmt w).1 (decode fmt w).2

/-- The opcode of each instruction, the same number in both formats (30_encoding.md R77). -/
def Instr.opcode : Instr → Nat
  | .read _ => 10
  | .write _ => 11
  | .load _ => 20
  | .store _ => 21
  | .add _ => 30
  | .subtract _ => 31
  | .divide _ => 32
  | .multiply _ => 33
  | .branch _ => 40
  | .branchNeg _ => 41
  | .branchZero _ => 42
  | .halt _ => 43

/-- The encoding function of 30_encoding.md R82. -/
def encodeFields (fmt : Format) (opcode operand : Nat) : Int := ((opcode * fmt.opDiv + operand : Nat) : Int)

/-- The non-negative word of an instruction (30_encoding.md R82); its negative stands for the same instruction (R73). -/
def encode (fmt : Format) (i : Instr) : Int := encodeFields fmt i.opcode i.operand

/-- The format under which the host's number `w` is read (log entry 10): OLD where it lies in the OLD domain, else
NEW. No row has one number in both formats (spec/opcode_table.json, `match`). -/
def tableWordFormat (w : Nat) : Format := if w ≤ Format.old.maxMag then .old else .new

/-- The instruction read from a table word. BasicML words are decimal integers and the table gives no bits
(30_encoding.md R83), so `w` is the word itself (log entry 10). -/
def decodeTableWord (_nbits w : Nat) : Option Instr :=
  match decodeInstr (tableWordFormat w) (w : Int) with
  | .instr i => some i
  | .undefinedOpcode _ _ => none

end Sys2Proof
end

