-- ==== Sys2Proof/Machine/State.lean ====
section
/-! DEFINITION. The state of the core (10_state.md), its values at reset, and the reasons a step gives no next state. -/

namespace Sys2Proof.Machine

/-- The memory store (10_state.md R20): pairs of an address and its word, addresses strictly rising, no word 0. An
unlisted address holds 0 (70_reset_and_hazards.md R250). Words are whole integers, not bytes (20_memory.md R51; log entry 1). -/
abbrev Memory := List (Nat × Int)

/-- The run status (10_state.md R29). -/
inductive Status where
  | running
  | halted
  | faulted
  deriving DecidableEq, Repr

/-- The five execution-time faults (60_exceptions.md R200). -/
inductive FaultCause where
  | invalidAddress
  | invalidInput
  | overflow
  | divisionByZero
  | invalidOpcode
  deriving DecidableEq, Repr

/-- The `value` of a fault record (10_state.md R30): none, the offending integer, or `Malformed`. -/
inductive FaultValue where
  | absent
  | number (v : Int)
  | malformed
  deriving DecidableEq, Repr

/-- The fault record (10_state.md R30). -/
structure FaultRecord where
  cause : FaultCause
  faultPc : Nat
  word : Int
  opcode : Nat
  operand : Nat
  value : FaultValue
  deriving DecidableEq, Repr

/-- `ReadPending(a)`: a READ at operand `a` waits for the port (10_state.md R34). -/
structure ReadPending where
  operand : Nat
  deriving DecidableEq, Repr

/-- The complete state of the core (10_state.md, opening and R20-R34), with the capacity it was built with and the
model's two fields for the I/O port. -/
structure State where
  /-- `CAPACITY` (00_scope.md R6): a parameter, fixed for the run. -/
  capacity : Nat
  /-- `M` (10_state.md R20). -/
  mem : Memory
  /-- `fmt` (10_state.md R22). -/
  fmt : Format
  /-- `acc` (10_state.md R23). -/
  acc : Int
  /-- `pc` (10_state.md R27). -/
  pc : Nat
  /-- `status` (10_state.md R29). -/
  status : Status
  /-- `fault` (10_state.md R30). -/
  fault : Option FaultRecord
  /-- `out` (10_state.md R31), oldest first. -/
  out : List Int
  /-- `wait` (10_state.md R34). -/
  wait : Option ReadPending
  /-- The model's own: what the I/O port does at its next turns, as far as that is fixed in advance (00_scope.md R10; log entry 3). -/
  inputs : List PortEvent
  /-- The model's own: how many free turns of the port have passed (log entry 3). -/
  draws : Nat
  deriving DecidableEq, Repr

/-- Why a step gives no next state. No instruction raises one: the spec's five faults are NEXT states with status
FAULTED (60_exceptions.md R206). -/
inductive Fault where
  /-- `step` at status HALTED: no step is ever taken again (40_execution_cycle.md R100). Safe. -/
  | runHalted
  /-- `step` at status FAULTED: no step is ever taken again (40_execution_cycle.md R100, 60_exceptions.md R209). Safe. -/
  | runFaulted
  /-- `step` at status RUNNING with `pc` outside `0 .. CAPACITY-1`, which no run reaches: no step is enabled
  (40_execution_cycle.md R100, 20_memory.md R54). Safe. -/
  | fetchOutsideMemory (pc : Nat)
  deriving DecidableEq, Repr

/-- What the model gives no meaning. -/
inductive Refusal where
  /-- An arm of `exec` whose instruction has no meaning yet: none is left. Safe. -/
  | notModelled (mnemonic : String)
  /-- `launch` of an image that breaks the launch premise: the spec refuses it (70_reset_and_hazards.md R258). No step
  raises it. Safe. -/
  | launchPremiseBroken
  deriving DecidableEq, Repr

/-- The machine right after reset, over the empty program: 10_state.md R41, 70_reset_and_hazards.md R254. The capacity
is the default (log entry 2); nothing is known of the port (log entry 3). -/
def State.reset : State where
  capacity := defaultCapacity
  mem := []
  fmt := .old
  acc := 0
  pc := 0
  status := .running
  fault := none
  out := []
  wait := none
  inputs := []
  draws := 0

end Sys2Proof.Machine
end

