-- ==== Sys2Proof/Machine/Ops.lean ====
section
/-! DEFINITION. The named operations over memory and registers: the primitives of 00_scope.md R12, taking a fault, and
the turn of the I/O port. -/

namespace Sys2Proof.Machine

/-! ### Memory -/

/-- `MemRead(a)` (00_scope.md R12): the word at `a`, 0 where none is listed. -/
def Memory.read : Memory → Nat → Int
  | [], _ => 0
  | (b, w) :: m, a => if a = b then w else Memory.read m a

/-- `MemWrite(a, v)` (00_scope.md R12), keeping the canonical form: a written 0 leaves no pair. -/
def Memory.write : Memory → Nat → Int → Memory
  | [], a, v => if v = 0 then [] else [(a, v)]
  | (b, w) :: m, a, v =>
    if a < b then (if v = 0 then (b, w) :: m else (a, v) :: (b, w) :: m)
    else if a = b then (if v = 0 then m else (a, v) :: m)
    else (b, w) :: Memory.write m a v

/-- The canonical form from address `lo` up: addresses strictly rising, no word 0. -/
def Memory.wfFrom : Nat → Memory → Bool
  | _, [] => true
  | lo, (a, w) :: m => decide (lo ≤ a) && decide (w ≠ 0) && Memory.wfFrom (a + 1) m

/-- The canonical form of a memory: equal memories are then equal lists. DESIGN CHOICE: the form is the model's own (log
entry 1). -/
def Memory.wf (m : Memory) : Bool := Memory.wfFrom 0 m

/-- The memory that holds the words of `ws` at `a`, `a + 1`, … and 0 elsewhere (70_reset_and_hazards.md R250). -/
def Memory.ofWordsFrom : Nat → List Int → Memory
  | _, [] => []
  | a, w :: ws => if w = 0 then Memory.ofWordsFrom (a + 1) ws else (a, w) :: Memory.ofWordsFrom (a + 1) ws

/-- The words at `a`, `a + 1`, …, `a + n - 1`. -/
def Memory.words (m : Memory) : Nat → Nat → List Int
  | _, 0 => []
  | a, n + 1 => m.read a :: Memory.words m (a + 1) n

/-! ### Registers -/

/-- `acc <- v`. -/
def State.setAcc (s : State) (v : Int) : State := { s with acc := v }

/-- `pc <- target`. -/
def State.setPc (s : State) (a : Nat) : State := { s with pc := a }

/-- `status <- st`. -/
def State.setStatus (s : State) (st : Status) : State := { s with status := st }

/-- `wait <- w`. -/
def State.setWait (s : State) (w : Option ReadPending) : State := { s with wait := w }

/-- `M[a] <- v`. -/
def State.writeWord (s : State) (a : Nat) (v : Int) : State := { s with mem := s.mem.write a v }

/-- `M[a]`. -/
def State.readWord (s : State) (a : Nat) : Int := s.mem.read a

/-- `IOWrite(v)` (00_scope.md R12): `out <- out ++ [v]`; it cannot fail (10_state.md R38). -/
def State.emit (s : State) (v : Int) : State := { s with out := s.out ++ [v] }

/-- Step 4 of the cycle: `pc <- p + 1` (40_execution_cycle.md R104). -/
def State.advance (s : State) : State := s.setPc (s.pc + 1)

/-! ### Faults -/

/-- `FR(cause, value)` of 40_execution_cycle.md R110 for the instruction at `p`: `word` is the word at `p`, `opcode` and
`operand` its decode (10_state.md R30; log entry 17). -/
def State.faultRecord (s : State) (p : Nat) (cause : FaultCause) (value : FaultValue) : FaultRecord where
  cause := cause
  faultPc := p
  word := s.readWord p
  opcode := (decode s.fmt (s.readWord p)).1
  operand := (decode s.fmt (s.readWord p)).2
  value := value

/-- `raise Fault(cause, info)` "does exactly this: `status <- FAULTED` and `fault <- info`" (60_exceptions.md R206).
There is no vector, no handler and no return (R206, R209). -/
def State.raise (s : State) (r : FaultRecord) : State := { s with status := .faulted, fault := some r }

/-! ### The I/O port -/

/-- What the port does at its next turn: as fixed in advance, else a free draw (41_io.md R122; log entry 3). -/
def State.portEvent (s : State) : PortEvent :=
  match s.inputs with
  | e :: _ => e
  | [] => Config.portEvent s.draws

/-- The port's turn is used up. -/
def State.passTurn (s : State) : State :=
  match s.inputs with
  | _ :: es => { s with inputs := es }
  | [] => { s with draws := s.draws + 1 }

/-! ### Labels -/

/-- The spec's numeric labels of the status (10_state.md R29). -/
def Status.code : Status → Nat
  | .running => 0
  | .halted => 1
  | .faulted => 2

/-- The spec's numeric labels of the fault causes (60_exceptions.md R200). -/
def FaultCause.code : FaultCause → Nat
  | .invalidAddress => 1
  | .invalidInput => 2
  | .overflow => 3
  | .divisionByZero => 4
  | .invalidOpcode => 5

end Sys2Proof.Machine
end

