-- ==== Sys2Proof/Machine/Flags.lean ====
section
/-! DEFINITION. The hardware has no flags (10_state.md R32). What it computes beside a result is the overflow check
(43_arithmetic.md R140, R141). -/

namespace Sys2Proof.Machine

/-- The ALU's commit of an exact result `r` for the instruction at `p`: the accumulator takes it when it lies in the
format's domain; else Overflow is raised with `r` in the record and the accumulator keeps its value
(43_arithmetic.md R140, R141). -/
def State.commit (s : State) (p : Nat) (r : Int) : State :=
  if inDomain s.fmt r then s.setAcc r else s.raise (s.faultRecord p .overflow (.number r))

end Sys2Proof.Machine
end

