-- ==== Sys2Proof/Machine/Operands.lean ====
section
/-! DEFINITION. The one operand form, an absolute word address (30_encoding.md R76), and the address check that every
opcode passes through before it has any effect (20_memory.md R53, 40_execution_cycle.md R103). -/

namespace Sys2Proof.Machine

/-- Steps 3 and 4 of the cycle, then the effect `body` of step 5: an operand outside memory raises InvalidAddress and
leaves `pc = p`; else the pc advances and `body` runs (40_execution_cycle.md R103-R105). -/
def State.checked (s : State) (a : Nat) (body : State → State) : State :=
  if a < s.capacity then body s.advance else s.raise (s.faultRecord s.pc .invalidAddress .absent)

end Sys2Proof.Machine
end

