-- ==== Sys2Proof/Machine/Arithmetic.lean ====
section
/-! DEFINITION. The accumulator ALU: ADD, SUBTRACT, DIVIDE, MULTIPLY (43_arithmetic.md). -/

namespace Sys2Proof.Machine

/-- ADD (43_arithmetic.md R142). -/
def execAdd (a : Nat) (s : State) : Host.Outcome State Fault Refusal :=
  .next (s.checked a fun t => t.commit s.pc (t.acc + t.readWord a))

/-- SUBTRACT (43_arithmetic.md R143): accumulator minus memory. -/
def execSubtract (a : Nat) (s : State) : Host.Outcome State Fault Refusal :=
  .next (s.checked a fun t => t.commit s.pc (t.acc - t.readWord a))

/-- DIVIDE (43_arithmetic.md R144, R146): the floor of the quotient; a divisor of 0 raises DivisionByZero. It makes no
overflow check (R147). -/
def execDivide (a : Nat) (s : State) : Host.Outcome State Fault Refusal :=
  .next (s.checked a fun t =>
    if t.readWord a = 0 then t.raise (t.faultRecord s.pc .divisionByZero .absent)
    else t.setAcc (Int.fdiv t.acc (t.readWord a)))

/-- MULTIPLY (43_arithmetic.md R145): the exact product. -/
def execMultiply (a : Nat) (s : State) : Host.Outcome State Fault Refusal :=
  .next (s.checked a fun t => t.commit s.pc (t.acc * t.readWord a))

end Sys2Proof.Machine
end

