-- ==== Sys2Proof/Machine/Control.lean ====
section
/-! DEFINITION. BRANCH, BRANCHNEG, BRANCHZERO, HALT (44_control.md), and what a word with an undefined opcode does
(60_exceptions.md R205). -/

namespace Sys2Proof.Machine

/-- BRANCH (44_control.md R160): it overrides the advance of step 4. -/
def execBranch (a : Nat) (s : State) : Host.Outcome State Fault Refusal :=
  .next (s.checked a fun t => t.setPc a)

/-- BRANCHNEG (44_control.md R161). -/
def execBranchNeg (a : Nat) (s : State) : Host.Outcome State Fault Refusal :=
  .next (s.checked a fun t => if t.acc < 0 then t.setPc a else t)

/-- BRANCHZERO (44_control.md R162). -/
def execBranchZero (a : Nat) (s : State) : Host.Outcome State Fault Refusal :=
  .next (s.checked a fun t => if t.acc = 0 then t.setPc a else t)

/-- HALT (44_control.md R163). The operand is checked and otherwise ignored. -/
def execHalt (a : Nat) (s : State) : Host.Outcome State Fault Refusal :=
  .next (s.checked a fun t => t.setStatus .halted)

/-- A fetched word whose opcode is none of the twelve, with operand `a`: InvalidOpcode, after the address check and
the advance (60_exceptions.md R205, R208). -/
def execUndefined (a : Nat) (s : State) : Host.Outcome State Fault Refusal :=
  .next (s.checked a fun t => t.raise (t.faultRecord s.pc .invalidOpcode .absent))

end Sys2Proof.Machine
end

