-- ==== Sys2Proof/Machine/InOut.lean ====
section
/-! DEFINITION. READ and WRITE (41_io.md). -/

namespace Sys2Proof.Machine

/-- The core takes the answer `v` of the port to the READ at `p` with operand `a`: an in-domain value is stored, any
other raises InvalidInput and memory is not written (41_io.md R120). -/
def State.acceptInput (s : State) (p a : Nat) (v : Int) : State :=
  if inDomain s.fmt v then s.writeWord a v else s.raise (s.faultRecord p .invalidInput (.number v))

/-- One turn of the port for the pending READ at `p` with operand `a` (41_io.md R120, R122): an answer ends the wait;
without one the wait goes on and nothing else changes (10_state.md R34). -/
def State.answerRead (s : State) (p a : Nat) : State :=
  match s.portEvent with
  | .value v => (s.passTurn.setWait none).acceptInput p a v
  | .malformed => (s.passTurn.setWait none).raise (s.faultRecord p .invalidInput .malformed)
  | .silent => s.passTurn

/-- READ (41_io.md R120): the request sets the wait, and the port has its first turn in the same step. -/
def execRead (a : Nat) (s : State) : Host.Outcome State Fault Refusal :=
  .next (s.checked a fun t => (t.setWait (some { operand := a })).answerRead s.pc a)

/-- A later turn of the port while a READ with operand `a` waits. Step 4 of that READ has set `pc = p + 1`
(10_state.md R27), so `p` is `pc - 1` (log entry 5). -/
def State.resumeRead (s : State) (a : Nat) : State := s.answerRead (s.pc - 1) a

/-- WRITE (41_io.md R121). -/
def execWrite (a : Nat) (s : State) : Host.Outcome State Fault Refusal :=
  .next (s.checked a fun t => t.emit (t.readWord a))

end Sys2Proof.Machine
end

