-- ==== Sys2Proof/Machine/Movement.lean ====
section
/-! DEFINITION. LOAD and STORE (42_data_movement.md). -/

namespace Sys2Proof.Machine

/-- LOAD (42_data_movement.md R130). -/
def execLoad (a : Nat) (s : State) : Host.Outcome State Fault Refusal :=
  .next (s.checked a fun t => t.setAcc (t.readWord a))

/-- STORE (42_data_movement.md R131). -/
def execStore (a : Nat) (s : State) : Host.Outcome State Fault Refusal :=
  .next (s.checked a fun t => t.writeWord a t.acc)

end Sys2Proof.Machine
end

