-- ==== Sys2Proof/Machine/Cycle.lean ====
section
/-! DEFINITION. The execution cycle around `exec` (40_execution_cycle.md): when a step is enabled, fetch, decode, and
the implicit halt; and placing a word where the next fetch reads it. -/

namespace Sys2Proof.Machine

/-- Step 1: the word at the pc (40_execution_cycle.md R101). -/
def State.fetch (s : State) : Int := s.readWord s.pc

/-- Steps 2 to 5 for the word `w`: decode and dispatch; the address check and the advance stand in each meaning. -/
def runWord (w : Int) (s : State) : Host.Outcome State Fault Refusal :=
  match decodeInstr s.fmt w with
  | .instr i => exec i s
  | .undefinedOpcode _ a => execUndefined a s

/-- Step 6, the implicit halt: a step that leaves RUNNING and `pc = CAPACITY` ends HALTED (40_execution_cycle.md R106).
While a READ waits its step has not ended, so nothing happens yet (log entry 6). -/
def State.endStep (s : State) : State :=
  if s.status = .running ∧ s.pc = s.capacity ∧ s.wait = none then s.setStatus .halted else s

/-- Step 6 after an outcome. -/
def endOutcome : Host.Outcome State Fault Refusal → Host.Outcome State Fault Refusal
  | .next s => .next s.endStep
  | .fault f => .fault f
  | .refused r => .refused r

/-- One step of a running core that does not wait: enabled while `pc < CAPACITY` (40_execution_cycle.md R100). -/
def runStep (s : State) : Host.Outcome State Fault Refusal :=
  if s.pc < s.capacity then endOutcome (runWord s.fetch s) else .fault (.fetchOutsideMemory s.pc)

/-- One transition: a step of the core where one is enabled (40_execution_cycle.md R100, R110); while a READ waits, a
turn of the port (10_state.md R34; log entry 4); none once the run has ended. -/
def cycle (s : State) : Host.Outcome State Fault Refusal :=
  match s.status with
  | .halted => .fault .runHalted
  | .faulted => .fault .runFaulted
  | .running =>
    match s.wait with
    | some r => .next (s.resumeRead r.operand).endStep
    | none => runStep s

/-- The state with the table word `w` at the pc, in the format it is read in, ready for the next step to fetch
(log entry 9): the word and the format are what a load sets (70_reset_and_hazards.md R257); the core is running and
waits for nothing. -/
def State.placeWord (s : State) (w : Nat) : State :=
  { s.writeWord s.pc (w : Int) with fmt := tableWordFormat w, status := .running, fault := none, wait := none }

end Sys2Proof.Machine
end

