-- ==== Sys2Proof/Machine/Step.lean ====
section
/-! DEFINITION. One step of the machine, and the host's way to place an instruction where it is fetched. -/

namespace Sys2Proof.Machine

/-- One step (40_execution_cycle.md R110). -/
def step : State → Host.Outcome State Fault Refusal := cycle

/-- `s` with the table word `w` where the next step fetches it (log entry 9). -/
def State.withFetchWord (s : State) (_nbits w : Nat) : State := s.placeWord w

end Sys2Proof.Machine
end

