-- ==== Sys2Proof/Machine/Loader.lean ====
section
/-! DEFINITION. The program loader, the host-side procedure that makes the memory image and the format
(70_reset_and_hazards.md R241-R255). -/

namespace Sys2Proof.Machine

/-- A fatal load error with the 1-based number of its line (70_reset_and_hazards.md R252, 92_eei_decisions.md D14). -/
inductive LoadError where
  | unrecognizedWordLength (line : Nat)
  | mixedWordFormat (line : Nat)
  | programTooLarge (line : Nat)
  | malformedInstruction (line : Nat)
  deriving DecidableEq, Repr

/-- The warning OutOfRangeValue: a line that was skipped (70_reset_and_hazards.md R249). -/
structure OutOfRangeValue where
  line : Nat
  value : Int
  deriving DecidableEq, Repr

/-- What a successful load returns (70_reset_and_hazards.md R251): `image` is `M[0..CAPACITY-1]`. -/
structure Loaded where
  image : List Int
  fmt : Format
  count : Nat
  warnings : List OutOfRangeValue
  deriving DecidableEq, Repr

/-- The result of a load: an error returns no memory image (70_reset_and_hazards.md R252). -/
inductive LoadResult where
  | ok (r : Loaded)
  | error (e : LoadError)
  deriving DecidableEq, Repr

/-- What the loader has so far: the format once a line has fixed it, the accepted words and the warnings in line order. -/
structure LoadState where
  fmt : Option Format
  words : List Int
  warnings : List OutOfRangeValue
  deriving DecidableEq, Repr

/-- What one line does to the load. -/
inductive LineVerdict where
  | skip
  | stop
  | fail (e : LoadError)
  | continue (st : LoadState)
  deriving DecidableEq, Repr

/-- Leading characters of `ws` removed. -/
def trimLeft (ws : List Char) : Line → Line
  | [] => []
  | c :: cs => if c ∈ ws then trimLeft ws cs else c :: cs

/-- Leading and trailing white space removed (70_reset_and_hazards.md R241). -/
def trimLine (ws : List Char) (l : Line) : Line := (trimLeft ws (trimLeft ws l).reverse).reverse

/-- One leading sign removed (70_reset_and_hazards.md R244). -/
def stripSign : Line → Line
  | '+' :: cs => cs
  | '-' :: cs => cs
  | cs => cs

/-- The digit length of a trimmed line (70_reset_and_hazards.md R244). -/
def digitLength (t : Line) : Nat := (stripSign t).length

/-- The value of a decimal digit `0` to `9`; no other character is a digit (70_reset_and_hazards.md R248). -/
def digitValue (c : Char) : Option Nat :=
  if 48 ≤ c.toNat ∧ c.toNat ≤ 57 then some (c.toNat - 48) else none

/-- The value of decimal digits, most significant first, after the digits worth `n`. -/
def digitsValueFrom : Nat → Line → Option Nat
  | n, [] => some n
  | n, c :: cs =>
    match digitValue c with
    | some d => digitsValueFrom (10 * n + d) cs
    | none => none

/-- The value of one or more decimal digits. -/
def digitsValue : Line → Option Nat
  | [] => none
  | c :: cs => digitsValueFrom 0 (c :: cs)

/-- The signed decimal value of a line of the form `[+-]?[0-9]+` (70_reset_and_hazards.md R248). -/
def parseWord : Line → Option Int
  | '-' :: cs => (digitsValue cs).map fun n : Nat => -(n : Int)
  | '+' :: cs => (digitsValue cs).map fun n : Nat => (n : Int)
  | cs => (digitsValue cs).map fun n : Nat => (n : Int)

/-- The format a first substantive line of digit length `len` fixes (70_reset_and_hazards.md R245). -/
def inferFormat (len : Nat) : Option Format :=
  if len = Format.old.textWidth then some .old
  else if len = Format.new.textWidth then some .new
  else none

/-- The format of the line, or the error of step 3 of 70_reset_and_hazards.md R253 (R245, R246). -/
def lineFormat (n : Nat) (fmt : Option Format) (t : Line) : Except LoadError Format :=
  match fmt with
  | none =>
    match inferFormat (digitLength t) with
    | some f => .ok f
    | none => .error (.unrecognizedWordLength n)
  | some f => if digitLength t = f.textWidth then .ok f else .error (.mixedWordFormat n)

/-- Steps 4 to 7 of 70_reset_and_hazards.md R253 for a line of format `f` (R247-R250). -/
def acceptLine (cfg : LoaderConfig) (n : Nat) (st : LoadState) (f : Format) (t : Line) : LineVerdict :=
  if st.words.length = cfg.capacity then .fail (.programTooLarge n)
  else
    match parseWord t with
    | none => .fail (.malformedInstruction n)
    | some v =>
      if inDomain f v then .continue { st with fmt := some f, words := st.words ++ [v] }
      else .continue { st with fmt := some f, warnings := st.warnings ++ [{ line := n, value := v }] }

/-- The checks on a trimmed line `t` with number `n`, in the order of 70_reset_and_hazards.md R253. -/
def lineVerdict (cfg : LoaderConfig) (n : Nat) (st : LoadState) (t : Line) : LineVerdict :=
  if t = [] then .skip
  else if t ∈ cfg.terminators then .stop
  else
    match lineFormat n st.fmt t with
    | .error e => .fail e
    | .ok f => acceptLine cfg n st f t

/-- The result of a load that met no fatal error (70_reset_and_hazards.md R250, R251); OLD where no substantive line
fixed a format (R254). -/
def finishLoad (cfg : LoaderConfig) (st : LoadState) : Loaded where
  image := st.words ++ List.replicate (cfg.capacity - st.words.length) 0
  fmt := st.fmt.getD .old
  count := st.words.length
  warnings := st.warnings

/-- The lines from number `n` on (70_reset_and_hazards.md R255). -/
def loadFrom (cfg : LoaderConfig) : Nat → LoadState → List Line → LoadResult
  | _, st, [] => .ok (finishLoad cfg st)
  | n, st, l :: ls =>
    match lineVerdict cfg n st (trimLine cfg.whitespace l) with
    | .skip => loadFrom cfg (n + 1) st ls
    | .stop => .ok (finishLoad cfg st)
    | .fail e => .error e
    | .continue st' => loadFrom cfg (n + 1) st' ls

/-- `load(lines)` (70_reset_and_hazards.md R255). Lines are numbered from 1 (R241). -/
def load (cfg : LoaderConfig) (lines : List Line) : LoadResult :=
  loadFrom cfg 1 { fmt := none, words := [], warnings := [] } lines

end Sys2Proof.Machine
end

