-- ==== Sys2Proof/Machine/Launch.lean ====
section
/-! DEFINITION. The host interface around a run: launching a loaded image and reading the result
(70_reset_and_hazards.md R256-R258, 10_state.md R39-R41). -/

namespace Sys2Proof.Machine

/-- The launch premise (70_reset_and_hazards.md R258): exactly `CAPACITY` words, every one in the format's domain, and
a capacity of at least one word (92_eei_decisions.md D17). -/
def launchPremise (capacity : Nat) (image : List Int) (fmt : Format) : Bool :=
  decide (1 ≤ capacity) && decide (image.length = capacity) && image.all (inDomain fmt)

/-- The state at the start of a run over an image (10_state.md R41). `inputs` is what is fixed in advance of the port
(00_scope.md R10). -/
def State.start (capacity : Nat) (image : List Int) (fmt : Format) (inputs : List PortEvent) : State :=
  { State.reset with
    capacity := capacity
    mem := Memory.ofWordsFrom 0 image
    fmt := fmt
    inputs := inputs }

/-- `execute(memory, format)` up to its first step (70_reset_and_hazards.md R257): a launch that breaks the premise is
refused (R258). -/
def launch (capacity : Nat) (image : List Int) (fmt : Format) (inputs : List PortEvent) :
    Host.Outcome State Fault Refusal :=
  if launchPremise capacity image fmt then .next (State.start capacity image fmt inputs)
  else .refused .launchPremiseBroken

/-- What the combined `run(lines)` has after a successful load and before its first step: all that the load returned, so
that its warnings reach the caller (60_exceptions.md R212), and the outcome of the launch. DESIGN CHOICE: the spec names
`run(lines)` and does not say what it hands back (70_reset_and_hazards.md R257; log entry 22). -/
structure Booted where
  loaded : Loaded
  launched : Host.Outcome State Fault Refusal
  deriving Repr

/-- `run(lines)` up to the first step (70_reset_and_hazards.md R257): load, and launch only what loaded. A failed load
is handed back as its error (R252). -/
def boot (cfg : LoaderConfig) (lines : List Line) (inputs : List PortEvent) : Except LoadError Booted :=
  match load cfg lines with
  | .error e => .error e
  | .ok r => .ok { loaded := r, launched := launch cfg.capacity r.image r.fmt inputs }

/-- What the core hands back at the end of a run (10_state.md R40). -/
structure RunResult where
  acc : Int
  pc : Nat
  status : Status
  fault : Option FaultRecord
  out : List Int
  memory : List Int
  deriving DecidableEq, Repr

/-- The result interface: there is a result exactly when the status has left RUNNING (10_state.md R40,
40_execution_cycle.md R112). -/
def State.result (s : State) : Option RunResult :=
  match s.status with
  | .running => none
  | .halted | .faulted =>
    some { acc := s.acc, pc := s.pc, status := s.status, fault := s.fault, out := s.out, memory := s.mem.words 0 s.capacity }

/-- What `run(lines)` hands back once its run has ended: the load's count, format and warnings (70_reset_and_hazards.md
R251) beside the result of the run (10_state.md R40), so that no fault or warning is swallowed (60_exceptions.md R212).
DESIGN CHOICE (log entry 22). -/
structure RunReport where
  count : Nat
  fmt : Format
  warnings : List OutOfRangeValue
  result : RunResult
  deriving DecidableEq, Repr

/-- The report of a run over the load `r` that stands at `s`; there is none before the run has ended. -/
def runReport (r : Loaded) (s : State) : Option RunReport :=
  s.result.map fun x => { count := r.count, fmt := r.fmt, warnings := r.warnings, result := x }

end Sys2Proof.Machine
end

