-- ==== Sys2Proof/Safety.lean ====
section
/-! DEFINITION. What holds of every state a run reaches, in the terms the statements use. -/

namespace Sys2Proof.Machine

/-- Memory is canonical, has words only below `CAPACITY` (10_state.md R20), and holds only words of the format's
domain (10_state.md R21). -/
structure MemoryOk (s : State) : Prop where
  canonical : s.mem.wf = true
  bounded : ∀ p ∈ s.mem, p.1 < s.capacity
  inDomain : ∀ a, inDomain s.fmt (s.mem.read a)

/-- The registers hold legal values: the accumulator lies in its domain (10_state.md R23), the pc in `0 .. CAPACITY`,
and it is below `CAPACITY` whenever a step of the core is due (10_state.md R27). -/
structure RegistersOk (s : State) : Prop where
  accInDomain : inDomain s.fmt s.acc
  pcInRange : s.pc ≤ s.capacity
  pcFetchable : s.status = .running → s.wait = none → s.pc < s.capacity

/-- There is a fault record exactly in status FAULTED (10_state.md R30). -/
def FaultOk (s : State) : Prop := s.status = .faulted ↔ s.fault.isSome = true

/-- Only a running core waits, and it waits for the READ just before the pc, whose operand passed the address check and
whose step 4 has advanced the pc (10_state.md R34, 41_io.md R120). -/
def WaitOk (s : State) : Prop :=
  ∀ r, s.wait = some r →
    s.status = .running ∧ r.operand < s.capacity ∧ 1 ≤ s.pc ∧
      decodeInstr s.fmt (s.mem.read (s.pc - 1)) = .instr (.read r.operand)

/-- The invariant of the machine. -/
structure Inv (s : State) : Prop where
  memory : MemoryOk s
  registers : RegistersOk s
  fault : FaultOk s
  wait : WaitOk s
  outInDomain : ∀ v ∈ s.out, inDomain s.fmt v

/-- A run has ended exactly when the status is HALTED or FAULTED (40_execution_cycle.md R112). -/
def Ended (s : State) : Prop := s.status = .halted ∨ s.status = .faulted

end Sys2Proof.Machine
end

