-- ==== Sys2Proof/Certificates/Slice0/Obligations.lean ====
section
/-! DEFINITION. The statements for the provers, taken from the spec's numbered rules. Effects are written out as record
updates; `Claims` names only what several statements share. -/

namespace Sys2Proof.Claims

open Sys2Proof.Machine

/-- A step of the core is enabled (40_execution_cycle.md R100). -/
def Enabled (s : State) : Prop := s.status = .running ∧ s.wait = none ∧ s.pc < s.capacity

/-- The next step of the core fetches the instruction `i`. -/
def Fetches (s : State) (i : Instr) : Prop := Enabled s ∧ decodeInstr s.fmt (s.mem.read s.pc) = .instr i

/-- The fault record of 10_state.md R30 for the instruction at `p`. THE SPEC'S DECISION (D7, D24; log entry 19): the
record's fields. -/
def recordAt (s : State) (p : Nat) (cause : FaultCause) (value : FaultValue) : FaultRecord :=
  ⟨cause, p, s.mem.read p, (decode s.fmt (s.mem.read p)).1, (decode s.fmt (s.mem.read p)).2, value⟩

/-- `s` after a fault in step 5: `pc` is `p + 1` (60_exceptions.md R207). -/
def faultedPast (s : State) (cause : FaultCause) (value : FaultValue) : State :=
  { s with pc := s.pc + 1, status := .faulted, fault := some (recordAt s s.pc cause value) }

/-- The opcode `op` spells `mk a` in both formats and at both signs, and nothing else does (30_encoding.md R73, R77). -/
def SpelledBy (op : Nat) (mk : Nat → Instr) : Prop :=
  ∀ (fmt : Format) (w : Int) (a : Nat), decodeInstr fmt w = .instr (mk a) ↔ decode fmt w = (op, a)

/-- An operand outside memory raises InvalidAddress, and nothing else happens (40_execution_cycle.md R103). -/
def ChecksOperand (mk : Nat → Instr) : Prop :=
  ∀ (s : State) (a : Nat), s.capacity ≤ a →
    ∃ r, r.cause = .invalidAddress ∧ exec (mk a) s = .next { s with status := .faulted, fault := some r }

/-- The twelve opcodes of 30_encoding.md R77. -/
def opcodes : List Nat := [10, 11, 20, 21, 30, 31, 32, 33, 40, 41, 42, 43]

/-- The instruction writes the accumulator (10_state.md R24). -/
def WritesAcc (i : Instr) : Prop :=
  ∃ a, i = .load a ∨ i = .add a ∨ i = .subtract a ∨ i = .divide a ∨ i = .multiply a

/-- Status and fault record are as before, or the instruction faulted. -/
def StatusKeptOrFaulted (s t : State) : Prop :=
  (t.status = s.status ∧ t.fault = s.fault) ∨ t.status = .faulted

/-- `t` has the memory of `s`, word for word. -/
def SameMemory (s t : State) : Prop := ∀ b, t.mem.read b = s.mem.read b

/-- `t` differs from `s` at most in `acc`, `pc`, `status`, `fault`, `out` and memory: capacity, format, wait and the
port are as before. -/
def SameRest (s t : State) : Prop :=
  t.capacity = s.capacity ∧ t.fmt = s.fmt ∧ t.wait = s.wait ∧ t.inputs = s.inputs ∧ t.draws = s.draws

/-- The number of the line a load error names. -/
def errorLine : LoadError → Nat
  | .unrecognizedWordLength n => n
  | .mixedWordFormat n => n
  | .programTooLarge n => n
  | .malformedInstruction n => n

/-- A line that is empty after trimming (70_reset_and_hazards.md R242). -/
abbrev Blank (cfg : LoaderConfig) (l : Line) : Prop := trimLine cfg.whitespace l = []

/-- A terminator line (70_reset_and_hazards.md R243). -/
abbrev Terminator (cfg : LoaderConfig) (l : Line) : Prop :=
  ¬Blank cfg l ∧ trimLine cfg.whitespace l ∈ cfg.terminators

/-- A substantive line (00_scope.md R14, 70_reset_and_hazards.md R243). -/
abbrev Substantive (cfg : LoaderConfig) (l : Line) : Prop :=
  ¬Blank cfg l ∧ trimLine cfg.whitespace l ∉ cfg.terminators

/-- `t` is what trimming leaves of the line `l` (70_reset_and_hazards.md R241): only white space is cut off at the ends,
and none is left there. -/
def Trims (ws : List Char) (l t : Line) : Prop :=
  ∃ front back : Line, l = front ++ t ++ back ∧ (∀ c ∈ front, c ∈ ws) ∧ (∀ c ∈ back, c ∈ ws) ∧
    (∀ c, t.head? = some c → c ∉ ws) ∧ ∀ c, t.getLast? = some c → c ∉ ws

/-- `t` is an optional sign and one or more decimal digits, most significant first, and `v` is its usual signed decimal
value (70_reset_and_hazards.md R248). -/
def SignedDecimal (t : Line) (v : Int) : Prop :=
  ∃ (sign : Line) (ds : List Nat), ds ≠ [] ∧ (∀ d ∈ ds, d < 10) ∧ t = sign ++ ds.map Nat.digitChar ∧
    ((sign = [] ∨ sign = ['+']) ∧ v = (Nat.ofDigits 10 ds.reverse : Nat) ∨
      sign = ['-'] ∧ v = -((Nat.ofDigits 10 ds.reverse : Nat) : Int))

/-- The substantive lines before the first terminator, each with its 1-based number (70_reset_and_hazards.md R241-R243). -/
def substantiveLines (cfg : LoaderConfig) (lines : List Line) : List (Line × Nat) :=
  ((lines.zipIdx 1).takeWhile fun p => decide (¬Terminator cfg p.1)).filter fun p => decide (Substantive cfg p.1)

/-- The line `l` after the lines `pre`, which load as `r`, passes the format checks: as the first substantive line it has
4 or 6 digits, as a later one the width of the format (70_reset_and_hazards.md R245, R246). -/
def FitsFormat (cfg : LoaderConfig) (pre : List Line) (r : Loaded) (l : Line) : Prop :=
  ((¬∃ b ∈ pre, Substantive cfg b) →
    digitLength (trimLine cfg.whitespace l) = 4 ∨ digitLength (trimLine cfg.whitespace l) = 6) ∧
  ((∃ b ∈ pre, Substantive cfg b) → digitLength (trimLine cfg.whitespace l) = r.fmt.textWidth)

end Sys2Proof.Claims

section

open Sys2Proof Sys2Proof.Machine Sys2Proof.Claims

/-! ### Encoding -/

/-- 00_scope.md R7: the four constants of each format. -/
def Obligations.FormatsFixFourConstants : Prop :=
  Format.old.textWidth = 4 ∧ Format.old.maxMag = 9999 ∧ Format.old.opDiv = 100 ∧
  Format.new.textWidth = 6 ∧ Format.new.maxMag = 99999 ∧ Format.new.opDiv = 1000 ∧
  (∀ v : Int, inDomain .old v ↔ -9999 ≤ v ∧ v ≤ 9999) ∧
  ∀ v : Int, inDomain .new v ↔ -99999 ≤ v ∧ v ≤ 99999

/-- 30_encoding.md R73: opcode and operand come from the absolute value; `w` and `-w` decode the same. -/
def Obligations.DecodeSplitsTheMagnitude : Prop :=
  ∀ w : Int,
    decode .old w = (w.natAbs / 100, w.natAbs % 100) ∧
    decode .new w = (w.natAbs / 1000, w.natAbs % 1000) ∧
    ∀ fmt, decode fmt (-w) = decode fmt w

/-- 30_encoding.md R82 over instructions: encoding loses nothing at either sign, and only the encoding and its negative
decode to the instruction. -/
def Obligations.DecodeOfEncodeIsTheInstruction : Prop :=
  ∀ (fmt : Format) (i : Instr), i.wf fmt = true →
    decodeInstr fmt (encode fmt i) = .instr i ∧
    decodeInstr fmt (-encode fmt i) = .instr i ∧
    ∀ w : Int, decodeInstr fmt w = .instr i → w = encode fmt i ∨ w = -encode fmt i

/-- 30_encoding.md R82 over fields, with the ranges of 00_scope.md R8. -/
def Obligations.InDomainWordIsPlusOrMinusItsEncoding : Prop :=
  ∀ fmt : Format,
    (∀ o a : Nat, o ≤ 99 → a < fmt.opDiv →
      decode fmt (encodeFields fmt o a) = (o, a) ∧ inDomain fmt (encodeFields fmt o a)) ∧
    ∀ w : Int, inDomain fmt w →
      (decode fmt w).1 ≤ 99 ∧ (decode fmt w).2 < fmt.opDiv ∧
      (w = encodeFields fmt (decode fmt w).1 (decode fmt w).2 ∨
        w = -encodeFields fmt (decode fmt w).1 (decode fmt w).2)

/-- 30_encoding.md R83: `match` and `mask` of the opcode table. -/
def Obligations.TableRowMatchesExactlyItsWords : Prop :=
  ∀ (fmt : Format) (w : Int) (i : Instr),
    decodeInstr fmt w = .instr i ↔
      w.natAbs - w.natAbs % fmt.opDiv = i.opcode * fmt.opDiv ∧ i.operand = w.natAbs % fmt.opDiv

/-- 30_encoding.md R77, R78: every opcode but the twelve spells no instruction. -/
def Obligations.UndefinedOpcodesAreAllTheOthers : Prop :=
  ∀ (fmt : Format) (w : Int) (op a : Nat),
    decodeInstr fmt w = .undefinedOpcode op a ↔ decode fmt w = (op, a) ∧ op ∉ opcodes

/-- Words written out from the encodings of spec/opcode_table.json. -/
def Obligations.WordsWrittenFromTheTableDecode : Prop :=
  decodeInstr .old 1007 = .instr (.read 7) ∧ decodeInstr .new 11249 = .instr (.write 249) ∧
  decodeInstr .old (-2015) = .instr (.load 15) ∧ decodeInstr .new 21250 = .instr (.store 250) ∧
  decodeInstr .old 3005 = .instr (.add 5) ∧ decodeInstr .new (-33004) = .instr (.multiply 4) ∧
  decodeInstr .old 4020 = .instr (.branch 20) ∧ decodeInstr .new 43999 = .instr (.halt 999) ∧
  decodeInstr .old 0 = .undefinedOpcode 0 0

/-! ### The cycle -/

/-- 40_execution_cycle.md R110: a step runs the decoded instruction and then makes the implicit-halt check. THE SPEC'S
DECISION (D9; log entry 16): that check sets HALTED. MODEL'S INFERENCE (log entry 6): it is not made while a READ waits. -/
def Obligations.StepRunsTheDecodedInstruction : Prop :=
  ∀ (s : State) (i : Instr), Fetches s i →
    ∃ t, exec i s = .next t ∧
      step s = .next
        (if t.status = .running ∧ t.pc = t.capacity ∧ t.wait = none then { t with status := .halted } else t)

/-- 40_execution_cycle.md R103: the operand of every word is checked before its opcode is looked at. -/
def Obligations.OperandOutsideMemoryFaultsFirst : Prop :=
  ∀ s : State, Enabled s → s.capacity ≤ (decode s.fmt (s.mem.read s.pc)).2 →
    ∃ r, r.cause = .invalidAddress ∧ r.operand = (decode s.fmt (s.mem.read s.pc)).2 ∧
      step s = .next { s with status := .faulted, fault := some r }

/-- 60_exceptions.md R205: InvalidOpcode, once the operand has passed the check (R208); the word 0 raises it. -/
def Obligations.UndefinedOpcodeFaults : Prop :=
  (∀ s : State, Enabled s → (decode s.fmt (s.mem.read s.pc)).2 < s.capacity →
    (decode s.fmt (s.mem.read s.pc)).1 ∉ opcodes →
    ∃ r, r.cause = .invalidOpcode ∧ r.opcode = (decode s.fmt (s.mem.read s.pc)).1 ∧
      step s = .next { s with pc := s.pc + 1, status := .faulted, fault := some r }) ∧
  ∀ s : State, Enabled s → s.mem.read s.pc = 0 →
    ∃ r, r.cause = .invalidOpcode ∧ r.opcode = 0 ∧
      step s = .next { s with pc := s.pc + 1, status := .faulted, fault := some r }

/-- 40_execution_cycle.md R100: no step once the run has ended, nor at a pc outside memory. MODEL'S CHOICE (log entry
7): the model's `step` then answers a fault with a name of its own. -/
def Obligations.NoStepWhereNoneIsEnabled : Prop :=
  ∀ s : State,
    (s.status = .halted → step s = .fault .runHalted) ∧
    (s.status = .faulted → step s = .fault .runFaulted) ∧
    (s.status = .running → s.wait = none → s.capacity ≤ s.pc → step s = .fault (.fetchOutsideMemory s.pc))

/-- 40_execution_cycle.md R106: the implicit halt, and that only a step from `CAPACITY - 1` can cause it. THE SPEC'S
DECISION (D9; log entry 16): the status is then HALTED. MODEL'S INFERENCE (log entry 6): a READ that still waits has not
ended its step. -/
def Obligations.ReachingCapacityHalts : Prop :=
  (∀ s t : State, step s = .next t → t.wait = none → t.pc = t.capacity → t.status ≠ .running) ∧
  ∀ (s u : State) (i : Instr), Fetches s i → exec i s = .next u → u.status = .running → u.wait = none →
    u.pc = u.capacity →
    step s = .next { u with status := .halted } ∧ u.fault = s.fault ∧ s.pc + 1 = s.capacity

/-- 10_state.md R34: a waiting core takes no step; only the port's answer ends the wait, and then the READ completes
(41_io.md R120) or raises InvalidInput. MODEL'S CHOICE (log entries 3, 4, 5, 6): a transition of a waiting core is one
turn of the port, and the READ that waits stands just before the pc. THE SPEC'S DECISIONS D5, D9 (log entries 15, 16). -/
def Obligations.WaitEndsOnlyByThePortsAnswer : Prop :=
  ∀ (s : State) (r : ReadPending), s.status = .running → s.wait = some r →
    (s.portEvent = .silent → step s = .next s.passTurn) ∧
    (s.portEvent = .malformed → step s = .next { s.passTurn with
      wait := none, status := .faulted, fault := some (recordAt s (s.pc - 1) .invalidInput .malformed) }) ∧
    (∀ v, s.portEvent = .value v → ¬inDomain s.fmt v → step s = .next { s.passTurn with
      wait := none, status := .faulted, fault := some (recordAt s (s.pc - 1) .invalidInput (.number v)) }) ∧
    (∀ v, s.portEvent = .value v → inDomain s.fmt v → s.mem.wf = true →
      ∃ m : Memory, m.wf = true ∧ m.read r.operand = v ∧ (∀ b, b ≠ r.operand → m.read b = s.mem.read b) ∧
        step s = .next { s.passTurn with
          mem := m, wait := none, status := if s.pc = s.capacity then .halted else .running })

/-- 20_memory.md R63: a STORE into the next word is what the next step fetches and runs. -/
def Obligations.StoredWordRunsNext : Prop :=
  ∀ s : State, s.mem.wf = true → Fetches s (.store (s.pc + 1)) → s.pc + 1 < s.capacity →
    ∃ t, step s = .next t ∧ t.status = .running ∧ t.pc = s.pc + 1 ∧ t.mem.read t.pc = s.acc ∧
      step t = endOutcome (runWord s.acc t)

/-- 10_state.md R28: the pc after an instruction. -/
def Obligations.PcAfterAnInstruction : Prop :=
  ∀ s t : State, Enabled s → step s = .next t →
    t.pc =
      if s.capacity ≤ (decode s.fmt (s.mem.read s.pc)).2 then s.pc
      else if (decode s.fmt (s.mem.read s.pc)).1 = 40 then (decode s.fmt (s.mem.read s.pc)).2
      else if (decode s.fmt (s.mem.read s.pc)).1 = 41 ∧ s.acc < 0 then (decode s.fmt (s.mem.read s.pc)).2
      else if (decode s.fmt (s.mem.read s.pc)).1 = 42 ∧ s.acc = 0 then (decode s.fmt (s.mem.read s.pc)).2
      else s.pc + 1

/-! ### The instructions -/

/-- 41_io.md R120: READ, for each answer of the port. THE SPEC'S DECISION (D5; log entry 15): InvalidInput leaves memory
alone. MODEL'S CHOICE (log entry 3): the port's first turn falls in the step of the READ. -/
def Obligations.ReadStoresTheAnswer : Prop :=
  SpelledBy 10 Instr.read ∧ ChecksOperand Instr.read ∧
  ∀ (s : State) (a : Nat), a < s.capacity →
    (s.portEvent = .malformed → exec (.read a) s = .next { s.passTurn with
      pc := s.pc + 1, wait := none, status := .faulted,
      fault := some (recordAt s s.pc .invalidInput .malformed) }) ∧
    (∀ v, s.portEvent = .value v → ¬inDomain s.fmt v → exec (.read a) s = .next { s.passTurn with
      pc := s.pc + 1, wait := none, status := .faulted,
      fault := some (recordAt s s.pc .invalidInput (.number v)) }) ∧
    (∀ v, s.portEvent = .value v → inDomain s.fmt v → s.mem.wf = true →
      ∃ m : Memory, m.wf = true ∧ m.read a = v ∧ (∀ b, b ≠ a → m.read b = s.mem.read b) ∧
        exec (.read a) s = .next { s.passTurn with mem := m, pc := s.pc + 1, wait := none })

/-- 10_state.md R34: a READ without an answer leaves the core waiting, its pc advanced and nothing else done. MODEL'S
CHOICE (log entry 3): the port's first turn falls in the step of the READ. -/
def Obligations.ReadWithoutAnswerWaits : Prop :=
  ∀ (s : State) (a : Nat), a < s.capacity → s.portEvent = .silent →
    exec (.read a) s = .next { s.passTurn with pc := s.pc + 1, wait := some ⟨a⟩ }

/-- 41_io.md R121: WRITE. -/
def Obligations.WriteEmitsTheWord : Prop :=
  SpelledBy 11 Instr.write ∧ ChecksOperand Instr.write ∧
  ∀ (s : State) (a : Nat), a < s.capacity →
    exec (.write a) s = .next { s with pc := s.pc + 1, out := s.out ++ [s.mem.read a] }

/-- 42_data_movement.md R130: LOAD. -/
def Obligations.LoadReadsTheWord : Prop :=
  SpelledBy 20 Instr.load ∧ ChecksOperand Instr.load ∧
  ∀ (s : State) (a : Nat), a < s.capacity →
    exec (.load a) s = .next { s with pc := s.pc + 1, acc := s.mem.read a }

/-- 42_data_movement.md R131: STORE. -/
def Obligations.StoreWritesTheAccumulator : Prop :=
  SpelledBy 21 Instr.store ∧ ChecksOperand Instr.store ∧
  ∀ (s : State) (a : Nat), a < s.capacity → s.mem.wf = true →
    ∃ m : Memory, m.wf = true ∧ m.read a = s.acc ∧ (∀ b, b ≠ a → m.read b = s.mem.read b) ∧
      exec (.store a) s = .next { s with pc := s.pc + 1, mem := m }

/-- 43_arithmetic.md R142 with R141: ADD. THE SPEC'S DECISION (D4; log entry 15): Overflow leaves the accumulator alone. -/
def Obligations.AddCommitsOrOverflows : Prop :=
  SpelledBy 30 Instr.add ∧ ChecksOperand Instr.add ∧
  ∀ (s : State) (a : Nat), a < s.capacity →
    (inDomain s.fmt (s.acc + s.mem.read a) →
      exec (.add a) s = .next { s with pc := s.pc + 1, acc := s.acc + s.mem.read a }) ∧
    (¬inDomain s.fmt (s.acc + s.mem.read a) →
      exec (.add a) s = .next (faultedPast s .overflow (.number (s.acc + s.mem.read a))))

/-- 43_arithmetic.md R143 with R141: SUBTRACT. THE SPEC'S DECISION (D4; log entry 15): Overflow leaves the accumulator alone. -/
def Obligations.SubtractCommitsOrOverflows : Prop :=
  SpelledBy 31 Instr.subtract ∧ ChecksOperand Instr.subtract ∧
  ∀ (s : State) (a : Nat), a < s.capacity →
    (inDomain s.fmt (s.acc - s.mem.read a) →
      exec (.subtract a) s = .next { s with pc := s.pc + 1, acc := s.acc - s.mem.read a }) ∧
    (¬inDomain s.fmt (s.acc - s.mem.read a) →
      exec (.subtract a) s = .next (faultedPast s .overflow (.number (s.acc - s.mem.read a))))

/-- 43_arithmetic.md R144: DIVIDE, and that its quotient stays in the domain. THE SPEC'S DECISION (D6; log entry 16): the
quotient is the floor. -/
def Obligations.DivideFloorsOrFaults : Prop :=
  SpelledBy 32 Instr.divide ∧ ChecksOperand Instr.divide ∧
  (∀ (s : State) (a : Nat), a < s.capacity →
    (s.mem.read a ≠ 0 →
      exec (.divide a) s = .next { s with pc := s.pc + 1, acc := Int.fdiv s.acc (s.mem.read a) }) ∧
    (s.mem.read a = 0 → exec (.divide a) s = .next (faultedPast s .divisionByZero .absent))) ∧
  ∀ (fmt : Format) (n d : Int), d ≠ 0 → inDomain fmt n → inDomain fmt (Int.fdiv n d)

/-- 43_arithmetic.md R145 with R141: MULTIPLY. THE SPEC'S DECISION (D4; log entry 15): Overflow leaves the accumulator alone. -/
def Obligations.MultiplyCommitsOrOverflows : Prop :=
  SpelledBy 33 Instr.multiply ∧ ChecksOperand Instr.multiply ∧
  ∀ (s : State) (a : Nat), a < s.capacity →
    (inDomain s.fmt (s.acc * s.mem.read a) →
      exec (.multiply a) s = .next { s with pc := s.pc + 1, acc := s.acc * s.mem.read a }) ∧
    (¬inDomain s.fmt (s.acc * s.mem.read a) →
      exec (.multiply a) s = .next (faultedPast s .overflow (.number (s.acc * s.mem.read a))))

/-- 44_control.md R160: BRANCH. -/
def Obligations.BranchSetsThePc : Prop :=
  SpelledBy 40 Instr.branch ∧ ChecksOperand Instr.branch ∧
  ∀ (s : State) (a : Nat), a < s.capacity → exec (.branch a) s = .next { s with pc := a }

/-- 44_control.md R161: BRANCHNEG. -/
def Obligations.BranchNegTestsForNegative : Prop :=
  SpelledBy 41 Instr.branchNeg ∧ ChecksOperand Instr.branchNeg ∧
  ∀ (s : State) (a : Nat), a < s.capacity →
    exec (.branchNeg a) s = .next { s with pc := if s.acc < 0 then a else s.pc + 1 }

/-- 44_control.md R162: BRANCHZERO. -/
def Obligations.BranchZeroTestsForZero : Prop :=
  SpelledBy 42 Instr.branchZero ∧ ChecksOperand Instr.branchZero ∧
  ∀ (s : State) (a : Nat), a < s.capacity →
    exec (.branchZero a) s = .next { s with pc := if s.acc = 0 then a else s.pc + 1 }

/-- 44_control.md R163: HALT. -/
def Obligations.HaltEndsTheRun : Prop :=
  SpelledBy 43 Instr.halt ∧ ChecksOperand Instr.halt ∧
  ∀ (s : State) (a : Nat), a < s.capacity →
    exec (.halt a) s = .next { s with pc := s.pc + 1, status := .halted }

/-- 43_arithmetic.md R146: the accumulator after DIVIDE is the unique `q` with `q ≤ n/d < q + 1`, and the remainder has
the sign of the divisor. THE SPEC'S DECISION (D6; log entry 16). -/
def Obligations.DivisionRoundsDown : Prop :=
  ∀ (s t : State) (a : Nat), a < s.capacity → s.mem.read a ≠ 0 → exec (.divide a) s = .next t →
    (∀ q : Int, q = t.acc ↔
      (q : Rat) ≤ (s.acc : Rat) / (s.mem.read a : Rat) ∧ (s.acc : Rat) / (s.mem.read a : Rat) < (q : Rat) + 1) ∧
    0 ≤ (s.acc - s.mem.read a * t.acc) * s.mem.read a

/-- 43_arithmetic.md R147, with R140: Overflow is raised exactly for an exact result out of the domain, never by
DIVIDE, and the accumulator stays in its domain. THE SPEC'S DECISION (D4; log entry 15). -/
def Obligations.OverflowExactlyOutsideTheDomain : Prop :=
  ∀ (s t : State) (i : Instr) (a : Nat), inDomain s.fmt s.acc → s.fault = none → a < s.capacity →
    exec i s = .next t →
    (i = .add a → ((∃ r, t.fault = some r ∧ r.cause = .overflow) ↔ ¬inDomain s.fmt (s.acc + s.mem.read a)) ∧
      inDomain t.fmt t.acc) ∧
    (i = .subtract a → ((∃ r, t.fault = some r ∧ r.cause = .overflow) ↔ ¬inDomain s.fmt (s.acc - s.mem.read a)) ∧
      inDomain t.fmt t.acc) ∧
    (i = .multiply a → ((∃ r, t.fault = some r ∧ r.cause = .overflow) ↔ ¬inDomain s.fmt (s.acc * s.mem.read a)) ∧
      inDomain t.fmt t.acc) ∧
    (i = .divide a → (¬∃ r, t.fault = some r ∧ r.cause = .overflow) ∧ inDomain t.fmt t.acc)

/-! ### Frames -/

/-- LOAD, ADD, SUBTRACT, DIVIDE, MULTIPLY: the accumulator is the only destination, and a fault leaves it alone
(THE SPEC'S DECISION D4; log entry 15). -/
def Obligations.AccumulatorInstructionsFrame : Prop :=
  ∀ (s t : State) (i : Instr), WritesAcc i → exec i s = .next t →
    SameMemory s t ∧ SameRest s t ∧ t.out = s.out ∧ StatusKeptOrFaulted s t ∧
      (t.acc = s.acc ∨ (t.status = s.status ∧ t.fault = s.fault))

/-- STORE and READ: memory changes at most at the operand, which is the address stored to; a fault leaves memory alone
(THE SPEC'S DECISION D5; log entry 15). STORE leaves the wait and the port alone. -/
def Obligations.StoringInstructionsFrame : Prop :=
  ∀ (s t : State) (i : Instr), (∃ a, i = .store a ∨ i = .read a) → exec i s = .next t →
    (∀ b, b ≠ i.operand → t.mem.read b = s.mem.read b) ∧
    (SameMemory s t ∨ (t.status = s.status ∧ t.fault = s.fault)) ∧
    t.acc = s.acc ∧ t.out = s.out ∧ t.capacity = s.capacity ∧ t.fmt = s.fmt ∧ StatusKeptOrFaulted s t ∧
    (∀ a, i = .store a → SameRest s t)

/-- WRITE: the output log is the only destination. -/
def Obligations.WriteFrame : Prop :=
  ∀ (s t : State) (a : Nat), exec (.write a) s = .next t →
    SameMemory s t ∧ SameRest s t ∧ t.acc = s.acc ∧ StatusKeptOrFaulted s t ∧
      (t.out = s.out ∨ (t.status = s.status ∧ t.fault = s.fault))

/-- BRANCH, BRANCHNEG, BRANCHZERO, HALT: nothing but the pc, and the status for HALT. -/
def Obligations.ControlInstructionsFrame : Prop :=
  ∀ (s t : State) (i : Instr), (∃ a, i = .branch a ∨ i = .branchNeg a ∨ i = .branchZero a ∨ i = .halt a) →
    exec i s = .next t →
    SameMemory s t ∧ SameRest s t ∧ t.acc = s.acc ∧ t.out = s.out ∧
      ((t.fault = s.fault ∧ (t.status = s.status ∨ (∃ a, i = .halt a) ∧ t.status = .halted)) ∨ t.status = .faulted)

/-! ### Rules of the whole machine -/

/-- 10_state.md R24: who writes the accumulator, and that READ, WRITE, BRANCH and HALT do not read it either. -/
def Obligations.OnlyFiveInstructionsWriteTheAccumulator : Prop :=
  (∀ s t : State, step s = .next t → t.acc ≠ s.acc → ∃ i, Fetches s i ∧ WritesAcc i) ∧
  ∀ (s : State) (i : Instr) (x : Int),
    (∃ a, i = .read a ∨ i = .write a ∨ i = .branch a ∨ i = .halt a) →
    ∃ t, exec i s = .next t ∧ exec i { s with acc := x } = .next { t with acc := x }

/-- 10_state.md R22, 30_encoding.md R79: no transition changes the format or the capacity. -/
def Obligations.FormatAndCapacityAreFixedForTheRun : Prop :=
  ∀ s t : State, step s = .next t → t.fmt = s.fmt ∧ t.capacity = s.capacity

/-- 10_state.md R31: only WRITE appends to the output log, the word it names, and nothing removes from it. -/
def Obligations.OutputGrowsOnlyByWrite : Prop :=
  State.reset.out = [] ∧
  ∀ s t : State, step s = .next t →
    (∃ a, Fetches s (.write a) ∧ a < s.capacity ∧ t.out = s.out ++ [s.mem.read a]) ∨
    ((¬∃ a, Fetches s (.write a) ∧ a < s.capacity) ∧ t.out = s.out)

/-- 10_state.md R37: the input channel moves only on behalf of a READ. -/
def Obligations.InputChannelMovesOnlyForRead : Prop :=
  ∀ s t : State, step s = .next t → (t.inputs ≠ s.inputs ∨ t.draws ≠ s.draws) →
    s.wait ≠ none ∨ ∃ a, Fetches s (.read a) ∧ a < s.capacity

/-- 20_memory.md R56: memory changes only at the operand of a STORE or a READ. -/
def Obligations.MemoryChangesOnlyByStoreOrRead : Prop :=
  ∀ (s t : State) (b : Nat), step s = .next t → t.mem.read b ≠ s.mem.read b →
    Fetches s (.store b) ∨ Fetches s (.read b) ∨ s.wait = some ⟨b⟩

/-- 10_state.md R34: only a READ starts a wait, and only READs fall between a wait's start and its end. -/
def Obligations.OnlyReadWaits : Prop :=
  ∀ (s t : State) (r : ReadPending), step s = .next t → t.wait = some r →
    s.wait = some r ∨ (s.wait = none ∧ Fetches s (.read r.operand) ∧ r.operand < s.capacity)

/-- 60_exceptions.md R207: faults are precise. THE SPEC'S DECISIONS D4, D5, D24 (log entries 15, 19). MODEL'S INFERENCE
(log entry 5): a READ that waits stands just before the pc. -/
def Obligations.FaultsArePrecise : Prop :=
  ∀ s t : State, Inv s → step s = .next t → t.status = .faulted →
    t.acc = s.acc ∧ t.mem = s.mem ∧ t.out = s.out ∧
    ∃ r, t.fault = some r ∧
      r.faultPc = (if s.wait = none then s.pc else s.pc - 1) ∧
      t.pc = if r.cause = .invalidAddress then r.faultPc else r.faultPc + 1

/-- 60_exceptions.md R200: the five faults, who raises each, and what its record holds. THE SPEC'S
DECISION (D7; log entry 19): codes and fields. -/
def Obligations.FaultRecordTellsTheCause : Prop :=
  (FaultCause.code .invalidAddress = 1 ∧ FaultCause.code .invalidInput = 2 ∧ FaultCause.code .overflow = 3 ∧
    FaultCause.code .divisionByZero = 4 ∧ FaultCause.code .invalidOpcode = 5) ∧
  ∀ (s t : State) (r : FaultRecord), Inv s → step s = .next t → t.fault = some r →
    r.word = s.mem.read r.faultPc ∧ (r.opcode, r.operand) = decode s.fmt r.word ∧
    match r.cause with
    | .invalidAddress => s.capacity ≤ r.operand ∧ r.value = .absent
    | .invalidInput => r.opcode = 10 ∧ r.operand < s.capacity ∧
        (r.value = .malformed ∨ ∃ v, r.value = .number v ∧ ¬inDomain s.fmt v)
    | .overflow => r.operand < s.capacity ∧ ∃ v, r.value = .number v ∧ ¬inDomain s.fmt v ∧
        (r.opcode = 30 ∧ v = s.acc + s.mem.read r.operand ∨ r.opcode = 31 ∧ v = s.acc - s.mem.read r.operand ∨
          r.opcode = 33 ∧ v = s.acc * s.mem.read r.operand)
    | .divisionByZero => r.opcode = 32 ∧ r.operand < s.capacity ∧ s.mem.read r.operand = 0 ∧ r.value = .absent
    | .invalidOpcode => r.opcode ∉ opcodes ∧ r.operand < s.capacity ∧ r.value = .absent

/-- 20_memory.md R65: the operands a word can hold, and the two documented capacities. -/
def Obligations.OperandReachByFormat : Prop :=
  (∀ a : Nat, (∃ w, inDomain .old w ∧ (decode .old w).2 = a) ↔ a ≤ 99) ∧
  (∀ a : Nat, (∃ w, inDomain .new w ∧ (decode .new w).2 = a) ↔ a ≤ 999) ∧
  (∀ s t : State, Enabled s → s.fmt = .old → s.capacity = 250 ∨ s.capacity = 100 → s.fault = none →
    step s = .next t → ¬∃ r, t.fault = some r ∧ r.cause = .invalidAddress) ∧
  (∀ s t : State, Enabled s → s.fmt = .new → s.capacity = 250 ∨ s.capacity = 100 → s.fault = none →
    step s = .next t →
    ((∃ r, t.fault = some r ∧ r.cause = .invalidAddress) ↔ s.capacity ≤ (decode .new (s.mem.read s.pc)).2))

/-- Every transition keeps the invariant of the machine: words only below `CAPACITY` (10_state.md R20) and in the domain
(R21), the accumulator in its domain (R23), the pc in range (R27), a fault record exactly when FAULTED (R30), and a wait
only of a running core for the READ before the pc (R34). MODEL'S CHOICE (log entry 1): the canonical form of memory.
MODEL'S INFERENCES: where a READ that waits stands (log entry 5), and that it is not halted before its answer (log entry
6). THE SPEC'S DECISIONS: D4 and D5 (log entry 15), by which accumulator and memory stay in the domain, and D9 (log entry
16), by which the pc is below `CAPACITY` whenever a step is due. -/
def Obligations.StepKeepsTheInvariant : Prop :=
  ∀ s t : State, Inv s → step s = .next t → Inv t

/-- The reset state meets the invariant. MODEL'S CHOICES: the canonical form of memory (log entry 1), the capacity (log
entry 2), and the empty program's image (log entry 8). -/
def Obligations.ResetMeetsTheInvariant : Prop := Inv State.reset

/-- 40_execution_cycle.md R107: a machine in the invariant that is RUNNING always has a transition, so a run goes on
until it is HALTED or FAULTED. MODEL'S CHOICE (log entry 4): a turn of the port that brings no answer is a transition. -/
def Obligations.RunningMachineAlwaysSteps : Prop :=
  ∀ s : State, Inv s → (s.status = .running ↔ ∃ t, step s = .next t)

/-- 10_state.md R29, 60_exceptions.md R219: only HALT and the end of memory halt the core (the latter THE
SPEC'S DECISION D9; log entry 16). -/
def Obligations.OnlyHaltOrTheEndOfMemoryHalts : Prop :=
  ∀ s t : State, step s = .next t → t.status = .halted →
    (∃ a, Fetches s (.halt a) ∧ a < s.capacity ∧ t = { s with pc := s.pc + 1, status := .halted }) ∨
    (t.pc = t.capacity ∧ t.fault = s.fault)

/-- Every transition keeps the canonical form of memory, in every state. MODEL'S CHOICE (log entry 1): the form is the
model's own representation of the store of 10_state.md R20; the spec has no such form. -/
def Obligations.StepKeepsMemoryCanonical : Prop :=
  ∀ s t : State, s.mem.wf = true → step s = .next t → t.mem.wf = true

/-! ### Loading, launching, and the result -/

/-- 10_state.md R41, 70_reset_and_hazards.md R240: every piece of state at the start of a run over a loaded program. THE
SPEC'S DECISION (D15; log entry 13): the format of an empty program is OLD. MODEL'S CHOICE (log entry 22): what
`run(lines)` hands back. -/
def Obligations.RunStartsInTheResetState : Prop :=
  ∀ (cfg : LoaderConfig) (lines : List Line) (inputs : List PortEvent) (r : Loaded),
    1 ≤ cfg.capacity → load cfg lines = .ok r →
    ∃ s, boot cfg lines inputs = .ok ⟨r, .next s⟩ ∧
      (∀ a, a < r.count → some (s.mem.read a) = r.image[a]?) ∧ (∀ a, r.count ≤ a → s.mem.read a = 0) ∧
      s.fmt = r.fmt ∧ s.acc = 0 ∧ s.pc = 0 ∧ s.status = .running ∧ s.fault = none ∧ s.out = [] ∧ s.wait = none ∧
      s.capacity = cfg.capacity ∧ s.inputs = inputs

/-- What a launch starts meets the invariant (the canonical form of memory in it is the MODEL'S CHOICE, log entry 1). -/
def Obligations.LaunchMeetsTheInvariant : Prop :=
  ∀ (capacity : Nat) (image : List Int) (fmt : Format) (inputs : List PortEvent) (s : State),
    launch capacity image fmt inputs = .next s → Inv s

/-- 70_reset_and_hazards.md R258: the launch premise, and the refusal of an image that breaks it (THE SPEC'S DECISION
D18; log entry 14). -/
def Obligations.LaunchExactlyUnderThePremise : Prop :=
  ∀ (capacity : Nat) (image : List Int) (fmt : Format) (inputs : List PortEvent), 1 ≤ capacity →
    ((image.length = capacity ∧ ∀ w ∈ image, inDomain fmt w) →
      launch capacity image fmt inputs = .next (State.start capacity image fmt inputs)) ∧
    (¬(image.length = capacity ∧ ∀ w ∈ image, inDomain fmt w) →
      launch capacity image fmt inputs = .refused .launchPremiseBroken)

/-- 70_reset_and_hazards.md R247, R249, R250, R251: what a successful load returns. `vs` are the values, with their line
numbers, of the substantive lines before the first terminator (R248): the in-domain ones are the image from address 0 on
and 0 follows, and each other one is a warning. THE SPEC'S DECISIONS D3, D13, D14 (log entry 13). -/
def Obligations.LoadedImageFitsTheLaunchPremise : Prop :=
  ∀ (cfg : LoaderConfig) (lines : List Line) (r : Loaded), load cfg lines = .ok r →
    r.image.length = cfg.capacity ∧ r.count ≤ cfg.capacity ∧ (∀ w ∈ r.image, inDomain r.fmt w) ∧
    (∀ k, r.count ≤ k → k < cfg.capacity → r.image[k]? = some 0) ∧
    ∃ vs : List (Int × Nat),
      List.Forall₂ (fun l v => SignedDecimal (trimLine cfg.whitespace l.1) v.1 ∧ v.2 = l.2)
        (substantiveLines cfg lines) vs ∧
      r.image.take r.count = (vs.filter fun v => inDomain r.fmt v.1).map (fun v => v.1) ∧
      r.warnings = (vs.filter fun v => !inDomain r.fmt v.1).map fun v => ⟨v.2, v.1⟩

/-- 70_reset_and_hazards.md R249: OLD lines never warn, and NEW warns only of magnitudes 100000 to 999999 (rests on the
spec's decisions D2, D3; log entry 13). -/
def Obligations.WarningsOnlyForSixDigitMagnitudes : Prop :=
  ∀ (cfg : LoaderConfig) (lines : List Line) (r : Loaded), load cfg lines = .ok r →
    (r.fmt = .old → r.warnings = []) ∧
    ∀ w ∈ r.warnings, 100000 ≤ w.value.natAbs ∧ w.value.natAbs ≤ 999999 ∧ 1 ≤ w.line ∧ w.line ≤ lines.length

/-- 70_reset_and_hazards.md R243: lines after a terminator are not read, whatever they hold (THE SPEC'S
DECISION D13; log entry 13). -/
def Obligations.LinesAfterATerminatorAreNotRead : Prop :=
  ∀ (cfg : LoaderConfig) (before after : List Line) (l : Line), Terminator cfg l →
    load cfg (before ++ l :: after) = load cfg before

/-- 70_reset_and_hazards.md R245, R246: the first substantive line fixes the format, and every substantive line of a
load that meets no terminator has its width. THE SPEC'S DECISIONS D2, D13 (log entry 13). -/
def Obligations.FirstSubstantiveLineFixesTheFormat : Prop :=
  ∀ (cfg : LoaderConfig) (blanks rest : List Line) (l : Line),
    (∀ b ∈ blanks, Blank cfg b) → Substantive cfg l →
    (digitLength (trimLine cfg.whitespace l) ≠ 4 → digitLength (trimLine cfg.whitespace l) ≠ 6 →
      load cfg (blanks ++ l :: rest) = .error (.unrecognizedWordLength (blanks.length + 1))) ∧
    ∀ r, load cfg (blanks ++ l :: rest) = .ok r →
      digitLength (trimLine cfg.whitespace l) = r.fmt.textWidth ∧
      ((∀ k ∈ rest, ¬Terminator cfg k) → ∀ k ∈ rest, Substantive cfg k →
        digitLength (trimLine cfg.whitespace k) = r.fmt.textWidth)

/-- 70_reset_and_hazards.md R252, R253: a load reports the first error it finds, and which error that is: the checks of a
substantive line that the load reaches, in their order (R245-R249). THE SPEC'S DECISIONS D2, D3, D13, D14 (log entry 13):
digit length, grammar, order of the checks, and that every error carries its line number. -/
def Obligations.LoadReportsItsFirstError : Prop :=
  (∀ (cfg : LoaderConfig) (lines : List Line) (e : LoadError), load cfg lines = .error e →
    1 ≤ errorLine e ∧ errorLine e ≤ lines.length ∧
    (∃ r, load cfg (lines.take (errorLine e - 1)) = .ok r) ∧
    load cfg (lines.take (errorLine e)) = .error e) ∧
  ∀ (cfg : LoaderConfig) (pre rest : List Line) (l : Line) (r : Loaded),
    (∀ b ∈ pre, ¬Terminator cfg b) → load cfg pre = .ok r → Substantive cfg l →
    ((¬∃ b ∈ pre, Substantive cfg b) → ¬FitsFormat cfg pre r l →
      load cfg (pre ++ l :: rest) = .error (.unrecognizedWordLength (pre.length + 1))) ∧
    ((∃ b ∈ pre, Substantive cfg b) → ¬FitsFormat cfg pre r l →
      load cfg (pre ++ l :: rest) = .error (.mixedWordFormat (pre.length + 1))) ∧
    (FitsFormat cfg pre r l → r.count = cfg.capacity →
      load cfg (pre ++ l :: rest) = .error (.programTooLarge (pre.length + 1))) ∧
    (FitsFormat cfg pre r l → r.count ≠ cfg.capacity → (¬∃ v, SignedDecimal (trimLine cfg.whitespace l) v) →
      load cfg (pre ++ l :: rest) = .error (.malformedInstruction (pre.length + 1))) ∧
    (FitsFormat cfg pre r l → r.count ≠ cfg.capacity → (∃ v, SignedDecimal (trimLine cfg.whitespace l) v) →
      ∃ r', load cfg (pre ++ [l]) = .ok r')

/-- 70_reset_and_hazards.md R254: the empty program loads as OLD with memory all 0, and its run faults at once, the
same under either format. THE SPEC'S DECISION (D15; log entry 13). -/
def Obligations.EmptyProgramFaultsAtOnce : Prop :=
  (∀ (cfg : LoaderConfig) (blanks rest : List Line), (∀ b ∈ blanks, Blank cfg b) →
    (rest = [] ∨ ∃ l ls, rest = l :: ls ∧ Terminator cfg l) →
    load cfg (blanks ++ rest) = .ok ⟨List.replicate cfg.capacity 0, .old, 0, []⟩) ∧
  ∀ (capacity : Nat) (fmt : Format) (inputs : List PortEvent), 1 ≤ capacity →
    step (State.start capacity (List.replicate capacity 0) fmt inputs) =
      .next { State.start capacity (List.replicate capacity 0) fmt inputs with
        pc := 1, status := .faulted, fault := some ⟨.invalidOpcode, 0, 0, 0, 0, .absent⟩ }

/-- 10_state.md R40, 40_execution_cycle.md R112: there is a result exactly when the run has ended, and what it holds. -/
def Obligations.ResultExactlyWhenTheRunHasEnded : Prop :=
  ∀ s : State, (s.status = .running → s.result = none) ∧
    (Ended s → ∃ r, s.result = some r ∧ r.acc = s.acc ∧ r.pc = s.pc ∧ r.status = s.status ∧ r.fault = s.fault ∧
      r.out = s.out ∧ r.memory.length = s.capacity ∧ ∀ a, a < s.capacity → r.memory[a]? = some (s.mem.read a))

/-- 70_reset_and_hazards.md R241, R244, R248: what trimming leaves, the digit length, and which lines are words with which
value. THE SPEC'S DECISIONS D2, D3 (log entry 13). MODEL'S CHOICES (log entries 11, 12): the white space is a parameter,
and the digits are the ten of ASCII. -/
def Obligations.LinesAreTrimmedMeasuredAndParsed : Prop :=
  (∀ (ws : List Char) (l t : Line), trimLine ws l = t ↔ Trims ws l t) ∧
  (∀ t : Line, digitLength t = if t.head? = some '+' ∨ t.head? = some '-' then t.length - 1 else t.length) ∧
  ∀ (t : Line) (v : Int), parseWord t = some v ↔ SignedDecimal t v

/-- 60_exceptions.md R212: no load error, warning or fault is swallowed by `run(lines)`. MODEL'S CHOICE (log entry 22): the
spec does not say in what form `run(lines)` hands them back. -/
def Obligations.RunReportsEveryCondition : Prop :=
  (∀ (cfg : LoaderConfig) (lines : List Line) (inputs : List PortEvent),
    (∀ e, load cfg lines = .error e → boot cfg lines inputs = .error e) ∧
    ∀ r, load cfg lines = .ok r → ∃ b, boot cfg lines inputs = .ok b ∧ b.loaded = r ∧
      b.launched = launch cfg.capacity r.image r.fmt inputs) ∧
  ∀ (r : Loaded) (s : State), (s.status = .running → runReport r s = none) ∧
    (Ended s → ∃ x, runReport r s = some x ∧ some x.result = s.result ∧ x.result.fault = s.fault ∧
      x.warnings = r.warnings ∧ x.count = r.count ∧ x.fmt = r.fmt)

end
end

