-- ==== Sys2Proof/Laws/Codec.lean ====
section
/-! SUPPORT. Lemmas of the decoder and the encoder. -/

namespace Sys2Proof

@[simp] theorem Format.old_textWidth : Format.old.textWidth = 4 := rfl
@[simp] theorem Format.new_textWidth : Format.new.textWidth = 6 := rfl
@[simp] theorem Format.old_maxMag : Format.old.maxMag = 9999 := rfl
@[simp] theorem Format.new_maxMag : Format.new.maxMag = 99999 := rfl
@[simp] theorem Format.old_opDiv : Format.old.opDiv = 100 := rfl
@[simp] theorem Format.new_opDiv : Format.new.opDiv = 1000 := rfl

theorem Format.opDiv_pos (fmt : Format) : 0 < fmt.opDiv := by cases fmt <;> simp

/-- The domain as an interval. -/
theorem inDomain_iff (fmt : Format) (v : Int) : inDomain fmt v ↔ -(fmt.maxMag : Int) ≤ v ∧ v ≤ fmt.maxMag := by
  simp [inDomain]

/-- 0 is in every domain. -/
@[simp] theorem inDomain_zero (fmt : Format) : inDomain fmt 0 = true := by cases fmt <;> rfl

/-- The domain is symmetric (10_state.md R25). -/
theorem inDomain_iff_natAbs (fmt : Format) (v : Int) : inDomain fmt v ↔ v.natAbs ≤ fmt.maxMag := by
  rw [inDomain_iff]; omega

/-! ### The fields of each instruction -/

@[simp] theorem Instr.operand_read (a : Nat) : (Instr.read a).operand = a := rfl
@[simp] theorem Instr.operand_write (a : Nat) : (Instr.write a).operand = a := rfl
@[simp] theorem Instr.operand_load (a : Nat) : (Instr.load a).operand = a := rfl
@[simp] theorem Instr.operand_store (a : Nat) : (Instr.store a).operand = a := rfl
@[simp] theorem Instr.operand_add (a : Nat) : (Instr.add a).operand = a := rfl
@[simp] theorem Instr.operand_subtract (a : Nat) : (Instr.subtract a).operand = a := rfl
@[simp] theorem Instr.operand_divide (a : Nat) : (Instr.divide a).operand = a := rfl
@[simp] theorem Instr.operand_multiply (a : Nat) : (Instr.multiply a).operand = a := rfl
@[simp] theorem Instr.operand_branch (a : Nat) : (Instr.branch a).operand = a := rfl
@[simp] theorem Instr.operand_branchNeg (a : Nat) : (Instr.branchNeg a).operand = a := rfl
@[simp] theorem Instr.operand_branchZero (a : Nat) : (Instr.branchZero a).operand = a := rfl
@[simp] theorem Instr.operand_halt (a : Nat) : (Instr.halt a).operand = a := rfl
@[simp] theorem Instr.opcode_read (a : Nat) : (Instr.read a).opcode = 10 := rfl
@[simp] theorem Instr.opcode_write (a : Nat) : (Instr.write a).opcode = 11 := rfl
@[simp] theorem Instr.opcode_load (a : Nat) : (Instr.load a).opcode = 20 := rfl
@[simp] theorem Instr.opcode_store (a : Nat) : (Instr.store a).opcode = 21 := rfl
@[simp] theorem Instr.opcode_add (a : Nat) : (Instr.add a).opcode = 30 := rfl
@[simp] theorem Instr.opcode_subtract (a : Nat) : (Instr.subtract a).opcode = 31 := rfl
@[simp] theorem Instr.opcode_divide (a : Nat) : (Instr.divide a).opcode = 32 := rfl
@[simp] theorem Instr.opcode_multiply (a : Nat) : (Instr.multiply a).opcode = 33 := rfl
@[simp] theorem Instr.opcode_branch (a : Nat) : (Instr.branch a).opcode = 40 := rfl
@[simp] theorem Instr.opcode_branchNeg (a : Nat) : (Instr.branchNeg a).opcode = 41 := rfl
@[simp] theorem Instr.opcode_branchZero (a : Nat) : (Instr.branchZero a).opcode = 42 := rfl
@[simp] theorem Instr.opcode_halt (a : Nat) : (Instr.halt a).opcode = 43 := rfl

/-- What `instrOfFields` answers, from its answer: an instruction carries the fields it was made of. -/
theorem instrOfFields_eq_instr {op a : Nat} {i : Instr} (h : instrOfFields op a = .instr i) :
    i.opcode = op ∧ i.operand = a := by
  unfold instrOfFields at h
  split at h <;> cases h <;> exact ⟨rfl, rfl⟩

/-- An instruction's own fields give it back. -/
@[simp] theorem instrOfFields_self (i : Instr) : instrOfFields i.opcode i.operand = .instr i := by cases i <;> rfl

/-- The fields decide the instruction. -/
theorem instrOfFields_eq_instr_iff (op a : Nat) (i : Instr) :
    instrOfFields op a = .instr i ↔ i.opcode = op ∧ i.operand = a :=
  ⟨instrOfFields_eq_instr, by rintro ⟨rfl, rfl⟩; exact instrOfFields_self i⟩

/-- An undefined opcode is named with the fields it came from. -/
theorem instrOfFields_eq_undefined {op a op' a' : Nat} (h : instrOfFields op a = .undefinedOpcode op' a') :
    op' = op ∧ a' = a := by
  unfold instrOfFields at h
  split at h <;> cases h
  exact ⟨rfl, rfl⟩

/-- The decoder in terms of the fields. -/
theorem decodeInstr_eq_instr_iff (fmt : Format) (w : Int) (i : Instr) :
    decodeInstr fmt w = .instr i ↔ i.opcode = (decode fmt w).1 ∧ i.operand = (decode fmt w).2 :=
  instrOfFields_eq_instr_iff _ _ _

/-- A word that decodes to an undefined opcode carries it. -/
theorem decodeInstr_eq_undefined {fmt : Format} {w : Int} {op a : Nat}
    (h : decodeInstr fmt w = .undefinedOpcode op a) : op = (decode fmt w).1 ∧ a = (decode fmt w).2 :=
  instrOfFields_eq_undefined h

/-- The magnitude of an encoded word. -/
@[simp] theorem natAbs_encodeFields (fmt : Format) (op a : Nat) :
    (encodeFields fmt op a).natAbs = op * fmt.opDiv + a := rfl

end Sys2Proof
end

