-- ==== Sys2Proof/Laws/State.lean ====
section
/-! SUPPORT. What each update of a state does to each field: one lemma a field and update. -/

namespace Sys2Proof.Machine

variable (s : State)

/-! ### setAcc -/

@[simp] theorem State.setAcc_capacity (v : Int) : (s.setAcc v).capacity = s.capacity := rfl
@[simp] theorem State.setAcc_mem (v : Int) : (s.setAcc v).mem = s.mem := rfl
@[simp] theorem State.setAcc_fmt (v : Int) : (s.setAcc v).fmt = s.fmt := rfl
@[simp] theorem State.setAcc_acc (v : Int) : (s.setAcc v).acc = v := rfl
@[simp] theorem State.setAcc_pc (v : Int) : (s.setAcc v).pc = s.pc := rfl
@[simp] theorem State.setAcc_status (v : Int) : (s.setAcc v).status = s.status := rfl
@[simp] theorem State.setAcc_fault (v : Int) : (s.setAcc v).fault = s.fault := rfl
@[simp] theorem State.setAcc_out (v : Int) : (s.setAcc v).out = s.out := rfl
@[simp] theorem State.setAcc_wait (v : Int) : (s.setAcc v).wait = s.wait := rfl
@[simp] theorem State.setAcc_inputs (v : Int) : (s.setAcc v).inputs = s.inputs := rfl
@[simp] theorem State.setAcc_draws (v : Int) : (s.setAcc v).draws = s.draws := rfl

/-! ### setPc -/

@[simp] theorem State.setPc_capacity (a : Nat) : (s.setPc a).capacity = s.capacity := rfl
@[simp] theorem State.setPc_mem (a : Nat) : (s.setPc a).mem = s.mem := rfl
@[simp] theorem State.setPc_fmt (a : Nat) : (s.setPc a).fmt = s.fmt := rfl
@[simp] theorem State.setPc_acc (a : Nat) : (s.setPc a).acc = s.acc := rfl
@[simp] theorem State.setPc_pc (a : Nat) : (s.setPc a).pc = a := rfl
@[simp] theorem State.setPc_status (a : Nat) : (s.setPc a).status = s.status := rfl
@[simp] theorem State.setPc_fault (a : Nat) : (s.setPc a).fault = s.fault := rfl
@[simp] theorem State.setPc_out (a : Nat) : (s.setPc a).out = s.out := rfl
@[simp] theorem State.setPc_wait (a : Nat) : (s.setPc a).wait = s.wait := rfl
@[simp] theorem State.setPc_inputs (a : Nat) : (s.setPc a).inputs = s.inputs := rfl
@[simp] theorem State.setPc_draws (a : Nat) : (s.setPc a).draws = s.draws := rfl

/-! ### setStatus -/

@[simp] theorem State.setStatus_capacity (st : Status) : (s.setStatus st).capacity = s.capacity := rfl
@[simp] theorem State.setStatus_mem (st : Status) : (s.setStatus st).mem = s.mem := rfl
@[simp] theorem State.setStatus_fmt (st : Status) : (s.setStatus st).fmt = s.fmt := rfl
@[simp] theorem State.setStatus_acc (st : Status) : (s.setStatus st).acc = s.acc := rfl
@[simp] theorem State.setStatus_pc (st : Status) : (s.setStatus st).pc = s.pc := rfl
@[simp] theorem State.setStatus_status (st : Status) : (s.setStatus st).status = st := rfl
@[simp] theorem State.setStatus_fault (st : Status) : (s.setStatus st).fault = s.fault := rfl
@[simp] theorem State.setStatus_out (st : Status) : (s.setStatus st).out = s.out := rfl
@[simp] theorem State.setStatus_wait (st : Status) : (s.setStatus st).wait = s.wait := rfl
@[simp] theorem State.setStatus_inputs (st : Status) : (s.setStatus st).inputs = s.inputs := rfl
@[simp] theorem State.setStatus_draws (st : Status) : (s.setStatus st).draws = s.draws := rfl

/-! ### setWait -/

@[simp] theorem State.setWait_capacity (w : Option ReadPending) : (s.setWait w).capacity = s.capacity := rfl
@[simp] theorem State.setWait_mem (w : Option ReadPending) : (s.setWait w).mem = s.mem := rfl
@[simp] theorem State.setWait_fmt (w : Option ReadPending) : (s.setWait w).fmt = s.fmt := rfl
@[simp] theorem State.setWait_acc (w : Option ReadPending) : (s.setWait w).acc = s.acc := rfl
@[simp] theorem State.setWait_pc (w : Option ReadPending) : (s.setWait w).pc = s.pc := rfl
@[simp] theorem State.setWait_status (w : Option ReadPending) : (s.setWait w).status = s.status := rfl
@[simp] theorem State.setWait_fault (w : Option ReadPending) : (s.setWait w).fault = s.fault := rfl
@[simp] theorem State.setWait_out (w : Option ReadPending) : (s.setWait w).out = s.out := rfl
@[simp] theorem State.setWait_wait (w : Option ReadPending) : (s.setWait w).wait = w := rfl
@[simp] theorem State.setWait_inputs (w : Option ReadPending) : (s.setWait w).inputs = s.inputs := rfl
@[simp] theorem State.setWait_draws (w : Option ReadPending) : (s.setWait w).draws = s.draws := rfl

/-! ### writeWord -/

@[simp] theorem State.writeWord_capacity (a : Nat) (v : Int) : (s.writeWord a v).capacity = s.capacity := rfl
@[simp] theorem State.writeWord_mem (a : Nat) (v : Int) : (s.writeWord a v).mem = s.mem.write a v := rfl
@[simp] theorem State.writeWord_fmt (a : Nat) (v : Int) : (s.writeWord a v).fmt = s.fmt := rfl
@[simp] theorem State.writeWord_acc (a : Nat) (v : Int) : (s.writeWord a v).acc = s.acc := rfl
@[simp] theorem State.writeWord_pc (a : Nat) (v : Int) : (s.writeWord a v).pc = s.pc := rfl
@[simp] theorem State.writeWord_status (a : Nat) (v : Int) : (s.writeWord a v).status = s.status := rfl
@[simp] theorem State.writeWord_fault (a : Nat) (v : Int) : (s.writeWord a v).fault = s.fault := rfl
@[simp] theorem State.writeWord_out (a : Nat) (v : Int) : (s.writeWord a v).out = s.out := rfl
@[simp] theorem State.writeWord_wait (a : Nat) (v : Int) : (s.writeWord a v).wait = s.wait := rfl
@[simp] theorem State.writeWord_inputs (a : Nat) (v : Int) : (s.writeWord a v).inputs = s.inputs := rfl
@[simp] theorem State.writeWord_draws (a : Nat) (v : Int) : (s.writeWord a v).draws = s.draws := rfl

/-! ### emit -/

@[simp] theorem State.emit_capacity (v : Int) : (s.emit v).capacity = s.capacity := rfl
@[simp] theorem State.emit_mem (v : Int) : (s.emit v).mem = s.mem := rfl
@[simp] theorem State.emit_fmt (v : Int) : (s.emit v).fmt = s.fmt := rfl
@[simp] theorem State.emit_acc (v : Int) : (s.emit v).acc = s.acc := rfl
@[simp] theorem State.emit_pc (v : Int) : (s.emit v).pc = s.pc := rfl
@[simp] theorem State.emit_status (v : Int) : (s.emit v).status = s.status := rfl
@[simp] theorem State.emit_fault (v : Int) : (s.emit v).fault = s.fault := rfl
@[simp] theorem State.emit_out (v : Int) : (s.emit v).out = s.out ++ [v] := rfl
@[simp] theorem State.emit_wait (v : Int) : (s.emit v).wait = s.wait := rfl
@[simp] theorem State.emit_inputs (v : Int) : (s.emit v).inputs = s.inputs := rfl
@[simp] theorem State.emit_draws (v : Int) : (s.emit v).draws = s.draws := rfl

/-! ### advance -/

@[simp] theorem State.advance_capacity : s.advance.capacity = s.capacity := rfl
@[simp] theorem State.advance_mem : s.advance.mem = s.mem := rfl
@[simp] theorem State.advance_fmt : s.advance.fmt = s.fmt := rfl
@[simp] theorem State.advance_acc : s.advance.acc = s.acc := rfl
@[simp] theorem State.advance_pc : s.advance.pc = s.pc + 1 := rfl
@[simp] theorem State.advance_status : s.advance.status = s.status := rfl
@[simp] theorem State.advance_fault : s.advance.fault = s.fault := rfl
@[simp] theorem State.advance_out : s.advance.out = s.out := rfl
@[simp] theorem State.advance_wait : s.advance.wait = s.wait := rfl
@[simp] theorem State.advance_inputs : s.advance.inputs = s.inputs := rfl
@[simp] theorem State.advance_draws : s.advance.draws = s.draws := rfl

/-! ### raise -/

@[simp] theorem State.raise_capacity (r : FaultRecord) : (s.raise r).capacity = s.capacity := rfl
@[simp] theorem State.raise_mem (r : FaultRecord) : (s.raise r).mem = s.mem := rfl
@[simp] theorem State.raise_fmt (r : FaultRecord) : (s.raise r).fmt = s.fmt := rfl
@[simp] theorem State.raise_acc (r : FaultRecord) : (s.raise r).acc = s.acc := rfl
@[simp] theorem State.raise_pc (r : FaultRecord) : (s.raise r).pc = s.pc := rfl
@[simp] theorem State.raise_status (r : FaultRecord) : (s.raise r).status = .faulted := rfl
@[simp] theorem State.raise_fault (r : FaultRecord) : (s.raise r).fault = some r := rfl
@[simp] theorem State.raise_out (r : FaultRecord) : (s.raise r).out = s.out := rfl
@[simp] theorem State.raise_wait (r : FaultRecord) : (s.raise r).wait = s.wait := rfl
@[simp] theorem State.raise_inputs (r : FaultRecord) : (s.raise r).inputs = s.inputs := rfl
@[simp] theorem State.raise_draws (r : FaultRecord) : (s.raise r).draws = s.draws := rfl

/-! ### passTurn: only the port's two fields change -/

@[simp] theorem State.passTurn_capacity : s.passTurn.capacity = s.capacity := by unfold State.passTurn; split <;> rfl
@[simp] theorem State.passTurn_mem : s.passTurn.mem = s.mem := by unfold State.passTurn; split <;> rfl
@[simp] theorem State.passTurn_fmt : s.passTurn.fmt = s.fmt := by unfold State.passTurn; split <;> rfl
@[simp] theorem State.passTurn_acc : s.passTurn.acc = s.acc := by unfold State.passTurn; split <;> rfl
@[simp] theorem State.passTurn_pc : s.passTurn.pc = s.pc := by unfold State.passTurn; split <;> rfl
@[simp] theorem State.passTurn_status : s.passTurn.status = s.status := by unfold State.passTurn; split <;> rfl
@[simp] theorem State.passTurn_fault : s.passTurn.fault = s.fault := by unfold State.passTurn; split <;> rfl
@[simp] theorem State.passTurn_out : s.passTurn.out = s.out := by unfold State.passTurn; split <;> rfl
@[simp] theorem State.passTurn_wait : s.passTurn.wait = s.wait := by unfold State.passTurn; split <;> rfl

/-! ### readWord -/

@[simp] theorem State.readWord_eq (a : Nat) : s.readWord a = s.mem.read a := rfl

end Sys2Proof.Machine
end

