-- ==== Sys2Proof/Laws/Memory.lean ====
section
/-! SUPPORT. The memory laws: read after write, and the canonical form that every memory operation keeps. -/

namespace Sys2Proof.Machine

/-- A smaller bound is as good. -/
theorem Memory.wfFrom_mono {m : Memory} {lo hi : Nat} (hle : lo ≤ hi) (h : m.wfFrom hi = true) : m.wfFrom lo = true := by
  cases m with
  | nil => rfl
  | cons p m =>
    simp only [Memory.wfFrom, Bool.and_eq_true, decide_eq_true_eq] at h ⊢
    exact ⟨⟨hle.trans h.1.1, h.1.2⟩, h.2⟩

/-- Below its bound a canonical memory lists nothing. -/
theorem Memory.read_below {m : Memory} {lo a : Nat} (h : m.wfFrom lo = true) (ha : a < lo) : m.read a = 0 := by
  induction m generalizing lo with
  | nil => rfl
  | cons p m ih =>
    obtain ⟨b, w⟩ := p
    simp only [Memory.wfFrom, Bool.and_eq_true, decide_eq_true_eq] at h
    have hne : a ≠ b := by omega
    simp only [Memory.read, if_neg hne]
    exact ih h.2 (by omega)

/-- A write leaves every other address alone, in every memory. -/
theorem Memory.read_write_other (m : Memory) {a b : Nat} (v : Int) (hne : b ≠ a) : (m.write a v).read b = m.read b := by
  induction m with
  | nil =>
    simp only [Memory.write]
    split <;> simp [Memory.read, hne]
  | cons p m ih =>
    obtain ⟨c, w⟩ := p
    simp only [Memory.write]
    by_cases hac : a < c
    · by_cases hv : v = 0 <;> simp [hac, hv, Memory.read, hne]
    · by_cases hac' : a = c
      · subst hac'
        by_cases hv : v = 0 <;> simp [hv, Memory.read, hne]
      · simp [hac, hac', Memory.read, ih]

/-- A read of the written address gives the value written, in a canonical memory. -/
theorem Memory.read_write_same_from {m : Memory} {lo a : Nat} (v : Int) (h : m.wfFrom lo = true) :
    (m.write a v).read a = v := by
  induction m generalizing lo with
  | nil =>
    simp only [Memory.write]
    split <;> simp_all [Memory.read]
  | cons p m ih =>
    obtain ⟨c, w⟩ := p
    simp only [Memory.wfFrom, Bool.and_eq_true, decide_eq_true_eq] at h
    simp only [Memory.write]
    by_cases hac : a < c
    · by_cases hv : v = 0
      · have hne : a ≠ c := by omega
        simp [hac, hv, Memory.read, hne, Memory.read_below h.2 (show a < c + 1 by omega)]
      · simp [hac, hv, Memory.read]
    · by_cases hac' : a = c
      · subst hac'
        by_cases hv : v = 0
        · simp [hv, Memory.read_below h.2 (show a < a + 1 by omega)]
        · simp [hv, Memory.read]
      · simp [hac, hac', Memory.read, ih h.2]

/-- Read after write at the same address. -/
theorem Memory.read_write_same {m : Memory} {a : Nat} (v : Int) (h : m.wf = true) : (m.write a v).read a = v :=
  Memory.read_write_same_from v h

/-- Read after write, both cases. -/
theorem Memory.read_write {m : Memory} (a b : Nat) (v : Int) (h : m.wf = true) :
    (m.write a v).read b = if b = a then v else m.read b := by
  by_cases hb : b = a
  · subst hb; simp [Memory.read_write_same v h]
  · simp [hb, Memory.read_write_other m v hb]

/-- A write at or above the bound keeps the canonical form. -/
theorem Memory.write_wfFrom {m : Memory} {lo a : Nat} (v : Int) (h : m.wfFrom lo = true) (hlo : lo ≤ a) :
    (m.write a v).wfFrom lo = true := by
  induction m generalizing lo with
  | nil =>
    simp only [Memory.write]
    split <;> simp_all [Memory.wfFrom]
  | cons p m ih =>
    obtain ⟨c, w⟩ := p
    simp only [Memory.wfFrom, Bool.and_eq_true, decide_eq_true_eq] at h
    simp only [Memory.write]
    by_cases hac : a < c
    · by_cases hv : v = 0
      · simp [hac, hv, Memory.wfFrom, h]
      · simp only [hac, hv, if_true, if_false, Memory.wfFrom, Bool.and_eq_true, decide_eq_true_eq]
        exact ⟨⟨hlo, hv⟩, ⟨by omega, h.1.2⟩, h.2⟩
    · by_cases hac' : a = c
      · subst hac'
        by_cases hv : v = 0
        · simp only [hv, lt_irrefl, if_true, if_false]
          exact Memory.wfFrom_mono (by omega) h.2
        · simp [hv, Memory.wfFrom, h.2, hlo]
      · simp only [hac, hac', if_false, Memory.wfFrom, Bool.and_eq_true, decide_eq_true_eq]
        exact ⟨h.1, ih h.2 (by omega)⟩

/-- A write keeps the canonical form. -/
theorem Memory.write_wf {m : Memory} (a : Nat) (v : Int) (h : m.wf = true) : (m.write a v).wf = true :=
  Memory.write_wfFrom v h (Nat.zero_le a)

/-- A write lists no address but its own beside those listed before. -/
theorem Memory.mem_write {m : Memory} {a : Nat} {v : Int} {p : Nat × Int} (h : p ∈ m.write a v) :
    p = (a, v) ∨ p ∈ m := by
  induction m with
  | nil =>
    simp only [Memory.write] at h
    split at h <;> simp_all
  | cons q m ih =>
    obtain ⟨c, w⟩ := q
    simp only [Memory.write] at h
    split at h
    · split at h
      · exact .inr h
      · simpa using h
    · split at h
      · split at h
        · exact .inr (List.mem_cons_of_mem _ h)
        · rcases List.mem_cons.mp h with h | h
          · exact .inl h
          · exact .inr (List.mem_cons_of_mem _ h)
      · rcases List.mem_cons.mp h with h | h
        · exact .inr (by simp [h])
        · exact (ih h).imp id (List.mem_cons_of_mem _)

/-- An image as a memory is canonical. -/
theorem Memory.ofWordsFrom_wfFrom (a : Nat) (ws : List Int) : (Memory.ofWordsFrom a ws).wfFrom a = true := by
  induction ws generalizing a with
  | nil => rfl
  | cons w ws ih =>
    simp only [Memory.ofWordsFrom]
    split
    · exact Memory.wfFrom_mono (Nat.le_succ a) (ih (a + 1))
    · next hw => simp [Memory.wfFrom, hw, ih]

/-- An image as a memory reads back word by word. -/
theorem Memory.read_ofWordsFrom (a : Nat) (ws : List Int) (k : Nat) :
    (Memory.ofWordsFrom a ws).read (a + k) = ws.getD k 0 := by
  induction ws generalizing a k with
  | nil => simp [Memory.ofWordsFrom, Memory.read]
  | cons w ws ih =>
    simp only [Memory.ofWordsFrom]
    cases k with
    | zero =>
      split
      · next hw => simpa [hw] using Memory.read_below (Memory.ofWordsFrom_wfFrom (a + 1) ws) (Nat.lt_succ_self a)
      · simp [Memory.read]
    | succ k =>
      have hk := ih (a + 1) k
      have hshift : a + 1 + k = a + (k + 1) := by omega
      rw [hshift] at hk
      split
      · simpa using hk
      · have hne : a + (k + 1) ≠ a := by omega
        simpa [Memory.read, hne] using hk

/-- An image as a memory lists only the image's addresses. -/
theorem Memory.mem_ofWordsFrom {a : Nat} {ws : List Int} {p : Nat × Int} (h : p ∈ Memory.ofWordsFrom a ws) :
    a ≤ p.1 ∧ p.1 < a + ws.length := by
  induction ws generalizing a with
  | nil => cases h
  | cons w ws ih =>
    simp only [Memory.ofWordsFrom] at h
    have tail : p ∈ Memory.ofWordsFrom (a + 1) ws → a ≤ p.1 ∧ p.1 < a + (w :: ws).length := fun h' => by
      have := ih h'
      simp only [List.length_cons]
      omega
    split at h
    · exact tail h
    · rcases List.mem_cons.mp h with rfl | h
      · simp
      · exact tail h

/-- `Memory.words` gives the words read. -/
theorem Memory.words_eq (m : Memory) (a : Nat) (n : Nat) : m.words a n = (List.range n).map fun k => m.read (a + k) := by
  induction n generalizing a with
  | zero => rfl
  | succ n ih =>
    simp only [Memory.words, ih, List.range_succ_eq_map, List.map_cons, List.map_map, Nat.add_zero, List.cons.injEq, true_and]
    refine List.map_congr_left fun k _ => ?_
    simp [Nat.add_assoc, Nat.add_comm 1 k]

end Sys2Proof.Machine
end

