-- ==== Sys2Proof/Laws/Exec.lean ====
section
/-! SUPPORT. One lemma for each shared operation, saying all it can do; and that every instruction answers a next state. -/

namespace Sys2Proof.Machine

/-- The address check passes: step 4 and the effect happen. -/
theorem State.checked_of_lt {s : State} {a : Nat} (body : State → State) (h : a < s.capacity) :
    s.checked a body = body s.advance := if_pos h

/-- The address check fails: InvalidAddress, and nothing else. -/
theorem State.checked_of_le {s : State} {a : Nat} (body : State → State) (h : s.capacity ≤ a) :
    s.checked a body = s.raise (s.faultRecord s.pc .invalidAddress .absent) := if_neg (Nat.not_lt.mpr h)

/-- The address check, both cases. -/
theorem State.checked_cases (s : State) (a : Nat) (body : State → State) :
    (a < s.capacity ∧ s.checked a body = body s.advance) ∨
    (s.capacity ≤ a ∧ s.checked a body = s.raise (s.faultRecord s.pc .invalidAddress .absent)) := by
  rcases Nat.lt_or_ge a s.capacity with h | h
  · exact .inl ⟨h, State.checked_of_lt body h⟩
  · exact .inr ⟨h, State.checked_of_le body h⟩

/-- A result in the domain is committed. -/
theorem State.commit_of_inDomain {s : State} {r : Int} (p : Nat) (h : inDomain s.fmt r) : s.commit p r = s.setAcc r :=
  if_pos h

/-- A result out of the domain raises Overflow. -/
theorem State.commit_of_not_inDomain {s : State} {r : Int} (p : Nat) (h : ¬inDomain s.fmt r) :
    s.commit p r = s.raise (s.faultRecord p .overflow (.number r)) := if_neg h

/-- An input in the domain is stored. -/
theorem State.acceptInput_of_inDomain {s : State} {v : Int} (p a : Nat) (h : inDomain s.fmt v) :
    s.acceptInput p a v = s.writeWord a v := if_pos h

/-- An input out of the domain raises InvalidInput. -/
theorem State.acceptInput_of_not_inDomain {s : State} {v : Int} (p a : Nat) (h : ¬inDomain s.fmt v) :
    s.acceptInput p a v = s.raise (s.faultRecord p .invalidInput (.number v)) := if_neg h

/-- A turn of the port for a pending READ: no answer, a value stored, or InvalidInput. -/
theorem State.answerRead_cases (s : State) (p a : Nat) :
    (s.portEvent = .silent ∧ s.answerRead p a = s.passTurn) ∨
    (∃ v, s.portEvent = .value v ∧ inDomain s.fmt v ∧
      s.answerRead p a = (s.passTurn.setWait none).writeWord a v) ∨
    (∃ v, s.portEvent = .value v ∧ ¬inDomain s.fmt v ∧
      s.answerRead p a = (s.passTurn.setWait none).raise (s.faultRecord p .invalidInput (.number v))) ∨
    (s.portEvent = .malformed ∧
      s.answerRead p a = (s.passTurn.setWait none).raise (s.faultRecord p .invalidInput .malformed)) := by
  unfold State.answerRead
  split
  · next v hv =>
    have hf : (s.passTurn.setWait none).fmt = s.fmt := by simp
    by_cases hd : inDomain s.fmt v
    · exact .inr (.inl ⟨v, hv, hd, State.acceptInput_of_inDomain p a (hf.symm ▸ hd)⟩)
    · refine .inr (.inr (.inl ⟨v, hv, hd, ?_⟩))
      rw [State.acceptInput_of_not_inDomain p a (hf.symm ▸ hd)]
      simp [State.faultRecord]
  · next hv => exact .inr (.inr (.inr ⟨hv, rfl⟩))
  · next hv => exact .inl ⟨hv, rfl⟩

/-- The implicit halt, both cases. -/
theorem State.endStep_cases (s : State) :
    (s.status = .running ∧ s.pc = s.capacity ∧ s.wait = none ∧ s.endStep = s.setStatus .halted) ∨
    (¬(s.status = .running ∧ s.pc = s.capacity ∧ s.wait = none) ∧ s.endStep = s) := by
  unfold State.endStep
  split
  · next h => exact .inl ⟨h.1, h.2.1, h.2.2, rfl⟩
  · exact .inr ⟨‹_›, rfl⟩

section

variable (s : State)

/-! ### endStep: only the status changes -/

@[simp] theorem State.endStep_capacity : s.endStep.capacity = s.capacity := by unfold State.endStep; split <;> rfl
@[simp] theorem State.endStep_mem : s.endStep.mem = s.mem := by unfold State.endStep; split <;> rfl
@[simp] theorem State.endStep_fmt : s.endStep.fmt = s.fmt := by unfold State.endStep; split <;> rfl
@[simp] theorem State.endStep_acc : s.endStep.acc = s.acc := by unfold State.endStep; split <;> rfl
@[simp] theorem State.endStep_pc : s.endStep.pc = s.pc := by unfold State.endStep; split <;> rfl
@[simp] theorem State.endStep_fault : s.endStep.fault = s.fault := by unfold State.endStep; split <;> rfl
@[simp] theorem State.endStep_out : s.endStep.out = s.out := by unfold State.endStep; split <;> rfl
@[simp] theorem State.endStep_wait : s.endStep.wait = s.wait := by unfold State.endStep; split <;> rfl
@[simp] theorem State.endStep_inputs : s.endStep.inputs = s.inputs := by unfold State.endStep; split <;> rfl
@[simp] theorem State.endStep_draws : s.endStep.draws = s.draws := by unfold State.endStep; split <;> rfl

end

/-- A step that faulted or halted is left as it is. -/
theorem State.endStep_of_ne_running {s : State} (h : s.status ≠ .running) : s.endStep = s := if_neg fun hc => h hc.1

/-- The effect of step 5 on a state whose operand passed the check and whose pc stands at the instruction, as one
function: what each meaning computes. -/
def effect (s : State) : Instr → State
  | .read a => (s.advance.setWait (some { operand := a })).answerRead s.pc a
  | .write a => s.advance.emit (s.mem.read a)
  | .load a => s.advance.setAcc (s.mem.read a)
  | .store a => s.advance.writeWord a s.acc
  | .add a => s.advance.commit s.pc (s.acc + s.mem.read a)
  | .subtract a => s.advance.commit s.pc (s.acc - s.mem.read a)
  | .divide a =>
    if s.mem.read a = 0 then s.advance.raise (s.faultRecord s.pc .divisionByZero .absent)
    else s.advance.setAcc (Int.fdiv s.acc (s.mem.read a))
  | .multiply a => s.advance.commit s.pc (s.acc * s.mem.read a)
  | .branch a => s.setPc a
  | .branchNeg a => if s.acc < 0 then s.setPc a else s.advance
  | .branchZero a => if s.acc = 0 then s.setPc a else s.advance
  | .halt _ => s.advance.setStatus .halted

/-- Every instruction answers a next state: its effect behind the address check. -/
theorem exec_eq (i : Instr) (s : State) : exec i s = .next (s.checked i.operand fun _ => effect s i) := by
  cases i <;> rfl

/-- An instruction whose operand passes the check has its effect. -/
theorem exec_of_lt {i : Instr} {s : State} (h : i.operand < s.capacity) : exec i s = .next (effect s i) := by
  rw [exec_eq, State.checked_of_lt _ h]

/-- An instruction whose operand fails the check raises InvalidAddress. -/
theorem exec_of_le {i : Instr} {s : State} (h : s.capacity ≤ i.operand) :
    exec i s = .next (s.raise (s.faultRecord s.pc .invalidAddress .absent)) := by
  rw [exec_eq, State.checked_of_le _ h]

/-- Every way the effect of an instruction can come out, one constructor a way. `s` is the state with the pc at the
instruction and its operand checked. -/
inductive EffectOf (s : State) : Instr → State → Prop where
  | readWaits (a : Nat) (h : s.portEvent = .silent) :
      EffectOf s (.read a) (s.advance.setWait (some { operand := a })).passTurn
  | readStores (a : Nat) (v : Int) (h : s.portEvent = .value v) (hd : inDomain s.fmt v) :
      EffectOf s (.read a) (((s.advance.setWait (some { operand := a })).passTurn.setWait none).writeWord a v)
  | readRejects (a : Nat) (v : Int) (h : s.portEvent = .value v) (hd : ¬inDomain s.fmt v) :
      EffectOf s (.read a) (((s.advance.setWait (some { operand := a })).passTurn.setWait none).raise
        (s.faultRecord s.pc .invalidInput (.number v)))
  | readMalformed (a : Nat) (h : s.portEvent = .malformed) :
      EffectOf s (.read a) (((s.advance.setWait (some { operand := a })).passTurn.setWait none).raise
        (s.faultRecord s.pc .invalidInput .malformed))
  | write (a : Nat) : EffectOf s (.write a) (s.advance.emit (s.mem.read a))
  | load (a : Nat) : EffectOf s (.load a) (s.advance.setAcc (s.mem.read a))
  | store (a : Nat) : EffectOf s (.store a) (s.advance.writeWord a s.acc)
  | add (a : Nat) (hd : inDomain s.fmt (s.acc + s.mem.read a)) :
      EffectOf s (.add a) (s.advance.setAcc (s.acc + s.mem.read a))
  | addOverflows (a : Nat) (hd : ¬inDomain s.fmt (s.acc + s.mem.read a)) :
      EffectOf s (.add a) (s.advance.raise (s.faultRecord s.pc .overflow (.number (s.acc + s.mem.read a))))
  | subtract (a : Nat) (hd : inDomain s.fmt (s.acc - s.mem.read a)) :
      EffectOf s (.subtract a) (s.advance.setAcc (s.acc - s.mem.read a))
  | subtractOverflows (a : Nat) (hd : ¬inDomain s.fmt (s.acc - s.mem.read a)) :
      EffectOf s (.subtract a) (s.advance.raise (s.faultRecord s.pc .overflow (.number (s.acc - s.mem.read a))))
  | divide (a : Nat) (hd : s.mem.read a ≠ 0) :
      EffectOf s (.divide a) (s.advance.setAcc (Int.fdiv s.acc (s.mem.read a)))
  | divideByZero (a : Nat) (hd : s.mem.read a = 0) :
      EffectOf s (.divide a) (s.advance.raise (s.faultRecord s.pc .divisionByZero .absent))
  | multiply (a : Nat) (hd : inDomain s.fmt (s.acc * s.mem.read a)) :
      EffectOf s (.multiply a) (s.advance.setAcc (s.acc * s.mem.read a))
  | multiplyOverflows (a : Nat) (hd : ¬inDomain s.fmt (s.acc * s.mem.read a)) :
      EffectOf s (.multiply a) (s.advance.raise (s.faultRecord s.pc .overflow (.number (s.acc * s.mem.read a))))
  | branch (a : Nat) : EffectOf s (.branch a) (s.setPc a)
  | branchNegTaken (a : Nat) (h : s.acc < 0) : EffectOf s (.branchNeg a) (s.setPc a)
  | branchNegNotTaken (a : Nat) (h : ¬s.acc < 0) : EffectOf s (.branchNeg a) s.advance
  | branchZeroTaken (a : Nat) (h : s.acc = 0) : EffectOf s (.branchZero a) (s.setPc a)
  | branchZeroNotTaken (a : Nat) (h : ¬s.acc = 0) : EffectOf s (.branchZero a) s.advance
  | halt (a : Nat) : EffectOf s (.halt a) (s.advance.setStatus .halted)

/-- The effect is one of those. -/
theorem effectOf_effect (s : State) (i : Instr) : EffectOf s i (effect s i) := by
  cases i <;> simp only [effect]
  case read a =>
    have hp : (s.advance.setWait (some { operand := a })).portEvent = s.portEvent := rfl
    rcases State.answerRead_cases (s.advance.setWait (some { operand := a })) s.pc a with
      ⟨h, e⟩ | ⟨v, h, hd, e⟩ | ⟨v, h, hd, e⟩ | ⟨h, e⟩ <;> rw [e] <;> rw [hp] at h
    · exact .readWaits a h
    · exact .readStores a v h hd
    · exact .readRejects a v h hd
    · exact .readMalformed a h
  case write a => exact .write a
  case load a => exact .load a
  case store a => exact .store a
  case add a =>
    by_cases hd : inDomain s.fmt (s.acc + s.mem.read a)
    · rw [State.commit_of_inDomain s.pc (s := s.advance) hd]
      exact .add a hd
    · rw [State.commit_of_not_inDomain s.pc (s := s.advance) hd]
      exact .addOverflows a hd
  case subtract a =>
    by_cases hd : inDomain s.fmt (s.acc - s.mem.read a)
    · rw [State.commit_of_inDomain s.pc (s := s.advance) hd]
      exact .subtract a hd
    · rw [State.commit_of_not_inDomain s.pc (s := s.advance) hd]
      exact .subtractOverflows a hd
  case divide a =>
    split
    · exact .divideByZero a ‹_›
    · exact .divide a ‹_›
  case multiply a =>
    by_cases hd : inDomain s.fmt (s.acc * s.mem.read a)
    · rw [State.commit_of_inDomain s.pc (s := s.advance) hd]
      exact .multiply a hd
    · rw [State.commit_of_not_inDomain s.pc (s := s.advance) hd]
      exact .multiplyOverflows a hd
  case branch a => exact .branch a
  case branchNeg a =>
    split
    · exact .branchNegTaken a ‹_›
    · exact .branchNegNotTaken a ‹_›
  case branchZero a =>
    split
    · exact .branchZeroTaken a ‹_›
    · exact .branchZeroNotTaken a ‹_›
  case halt a => exact .halt a

/-- What an instruction can do: one of the ways its effect can come out, or InvalidAddress. -/
theorem exec_cases {i : Instr} {s t : State} (h : exec i s = .next t) :
    (i.operand < s.capacity ∧ EffectOf s i t) ∨
    (s.capacity ≤ i.operand ∧ t = s.raise (s.faultRecord s.pc .invalidAddress .absent)) := by
  rw [exec_eq] at h
  cases h
  rcases State.checked_cases s i.operand fun _ => effect s i with ⟨hlt, he⟩ | ⟨hle, he⟩
  · exact .inl ⟨hlt, by rw [he]; exact effectOf_effect s i⟩
  · exact .inr ⟨hle, he⟩

/-- A word with an undefined opcode answers a next state too. -/
theorem execUndefined_eq (a : Nat) (s : State) : execUndefined a s =
    .next (s.checked a fun _ => s.advance.raise (s.faultRecord s.pc .invalidOpcode .absent)) := rfl

end Sys2Proof.Machine
end

