-- ==== Sys2Proof/Laws/Loader.lean ====
section
/-! SUPPORT. What one line does to a load, case by case. -/

namespace Sys2Proof.Machine

variable {cfg : LoaderConfig} {n : Nat} {st : LoadState} {t : Line}

/-- A blank line is skipped (70_reset_and_hazards.md R242). -/
theorem lineVerdict_blank (h : t = []) : lineVerdict cfg n st t = .skip := if_pos h

/-- A terminator stops the load (70_reset_and_hazards.md R243). -/
theorem lineVerdict_terminator (hb : ¬t = []) (h : t ∈ cfg.terminators) : lineVerdict cfg n st t = .stop := by
  unfold lineVerdict
  rw [if_neg hb, if_pos h]

/-- A substantive line goes through the checks of its format. -/
theorem lineVerdict_substantive (hb : ¬t = []) (h : t ∉ cfg.terminators) : lineVerdict cfg n st t =
    match lineFormat n st.fmt t with
    | .error e => .fail e
    | .ok f => acceptLine cfg n st f t := by
  cases hf : lineFormat n st.fmt t <;> simp [lineVerdict, hb, h, hf]

/-- The format step: the line has the format's width, and the format is the one fixed before, if one was. -/
theorem lineFormat_ok {fmt : Option Format} {f : Format} (h : lineFormat n fmt t = .ok f) :
    digitLength t = f.textWidth ∧ ∀ g, fmt = some g → g = f := by
  unfold lineFormat at h
  split at h
  · split at h
    · next g hg =>
      cases h
      unfold inferFormat at hg
      split at hg
      · cases hg; simp_all
      · split at hg <;> cases hg; simp_all
    · cases h
  · split at h <;> cases h; simp_all

/-- An error of the format step names the line. -/
theorem lineFormat_error {fmt : Option Format} {e : LoadError} (h : lineFormat n fmt t = .error e) :
    e = .unrecognizedWordLength n ∨ e = .mixedWordFormat n := by
  unfold lineFormat at h
  split at h
  · split at h <;> cases h; exact .inl rfl
  · split at h <;> cases h; exact .inr rfl

/-- What the later checks can do with a line of format `f`. -/
inductive AcceptEffect (cfg : LoaderConfig) (n : Nat) (st : LoadState) (f : Format) (t : Line) : LineVerdict → Prop where
  | tooLarge (h : st.words.length = cfg.capacity) : AcceptEffect cfg n st f t (.fail (.programTooLarge n))
  | malformed (h : st.words.length ≠ cfg.capacity) (hp : parseWord t = none) :
      AcceptEffect cfg n st f t (.fail (.malformedInstruction n))
  | accept (v : Int) (h : st.words.length ≠ cfg.capacity) (hp : parseWord t = some v) (hd : inDomain f v) :
      AcceptEffect cfg n st f t (.continue { st with fmt := some f, words := st.words ++ [v] })
  | warn (v : Int) (h : st.words.length ≠ cfg.capacity) (hp : parseWord t = some v) (hd : ¬inDomain f v) :
      AcceptEffect cfg n st f t
        (.continue { st with fmt := some f, warnings := st.warnings ++ [{ line := n, value := v }] })

/-- It does one of those. -/
theorem acceptLine_cases (cfg : LoaderConfig) (n : Nat) (st : LoadState) (f : Format) (t : Line) :
    AcceptEffect cfg n st f t (acceptLine cfg n st f t) := by
  unfold acceptLine
  split
  · exact .tooLarge ‹_›
  · split
    · exact .malformed ‹_› ‹_›
    · split
      · exact .accept _ ‹_› ‹_› ‹_›
      · exact .warn _ ‹_› ‹_› ‹_›

/-- Digits after digits worth `k` stay below the next power of ten. -/
theorem digitsValueFrom_lt {k v : Nat} {l : Line} (h : digitsValueFrom k l = some v) : v < (k + 1) * 10 ^ l.length := by
  induction l generalizing k with
  | nil =>
    simp only [digitsValueFrom, Option.some.injEq] at h
    subst h
    simp
  | cons c cs ih =>
    simp only [digitsValueFrom] at h
    split at h
    · next d hd =>
      have hd9 : d ≤ 9 := by
        unfold digitValue at hd
        split at hd <;> simp only [Option.some.injEq, reduceCtorEq] at hd
        omega
      refine lt_of_lt_of_le (ih h) ?_
      rw [List.length_cons, pow_succ, mul_comm (10 ^ cs.length) 10, ← mul_assoc]
      exact Nat.mul_le_mul_right _ (by omega)
    · cases h

/-- The value of `l.length` digits. -/
theorem digitsValue_lt {v : Nat} {l : Line} (h : digitsValue l = some v) : v < 10 ^ l.length := by
  cases l with
  | nil => cases h
  | cons c cs => simpa using digitsValueFrom_lt (k := 0) h

/-- The magnitude of a parsed line has at most its digit length in digits. -/
theorem parseWord_natAbs_lt {v : Int} (h : parseWord t = some v) : v.natAbs < 10 ^ digitLength t := by
  have bound : ∀ cs v, (digitsValue cs).map (fun k : Nat => (k : Int)) = some v ∨
      (digitsValue cs).map (fun k : Nat => -(k : Int)) = some v → v.natAbs < 10 ^ cs.length := by
    rintro cs v (h | h) <;>
      · obtain ⟨k, hk, rfl⟩ := Option.map_eq_some_iff.mp h
        simpa using digitsValue_lt hk
  unfold digitLength
  match t, h with
  | '-' :: cs, h => exact bound cs v (.inr h)
  | '+' :: cs, h => exact bound cs v (.inl h)
  | [], h => cases h
  | c :: cs, h =>
    unfold parseWord at h
    unfold stripSign
    split at h
    · next heq => cases heq; exact bound _ v (.inr h)
    · next heq => cases heq; exact bound _ v (.inl h)
    · next h1 h2 =>
      split
      · next heq => exact absurd heq (h2 _)
      · next heq => exact absurd heq (h1 _)
      · exact bound _ v (.inl h)

end Sys2Proof.Machine
end

