-- ==== Sys2Proof/Laws/PerInstr.lean ====
section
/-! SUPPORT. A fact of every instruction as syntax: a well-formed instruction's word lies in the format's domain, so a
program can hold it. -/

namespace Sys2Proof.Laws.WordFits

/-- The word of a well-formed instruction is a word a memory may hold under the format (10_state.md R21). -/
def Statement (i : Instr) : Prop := ∀ fmt : Format, i.wf fmt = true → 0 ≤ encode fmt i ∧ inDomain fmt (encode fmt i)

/-- Every opcode has two decimal digits, so the word fits. -/
theorem of_opcode {i : Instr} (hop : i.opcode ≤ 99) : Statement i := by
  intro fmt h
  have ha : i.operand < fmt.opDiv := of_decide_eq_true h
  cases fmt <;> simp [encode, encodeFields, inDomain_iff] at ha ⊢ <;> omega

theorem read (a : Nat) : Statement (.read a) := of_opcode (i := .read a) (by decide : 10 ≤ 99)
theorem write (a : Nat) : Statement (.write a) := of_opcode (i := .write a) (by decide : 11 ≤ 99)
theorem load (a : Nat) : Statement (.load a) := of_opcode (i := .load a) (by decide : 20 ≤ 99)
theorem store (a : Nat) : Statement (.store a) := of_opcode (i := .store a) (by decide : 21 ≤ 99)
theorem add (a : Nat) : Statement (.add a) := of_opcode (i := .add a) (by decide : 30 ≤ 99)
theorem subtract (a : Nat) : Statement (.subtract a) := of_opcode (i := .subtract a) (by decide : 31 ≤ 99)
theorem divide (a : Nat) : Statement (.divide a) := of_opcode (i := .divide a) (by decide : 32 ≤ 99)
theorem multiply (a : Nat) : Statement (.multiply a) := of_opcode (i := .multiply a) (by decide : 33 ≤ 99)
theorem branch (a : Nat) : Statement (.branch a) := of_opcode (i := .branch a) (by decide : 40 ≤ 99)
theorem branchNeg (a : Nat) : Statement (.branchNeg a) := of_opcode (i := .branchNeg a) (by decide : 41 ≤ 99)
theorem branchZero (a : Nat) : Statement (.branchZero a) := of_opcode (i := .branchZero a) (by decide : 42 ≤ 99)
theorem halt (a : Nat) : Statement (.halt a) := of_opcode (i := .halt a) (by decide : 43 ≤ 99)

end Sys2Proof.Laws.WordFits
end

