-- ==== Sys2Proof/Laws/Step.lean ====
section
/-! SUPPORT. Once and for all, what a step can do. -/

namespace Sys2Proof.Machine

/-- The three things an enabled step of the core can do with the word it fetched. -/
inductive StepEffect (s : State) : State → Prop where
  /-- The operand lies outside memory. -/
  | invalidAddress (h : s.capacity ≤ (decode s.fmt (s.mem.read s.pc)).2) :
      StepEffect s (s.raise (s.faultRecord s.pc .invalidAddress .absent))
  /-- The opcode is undefined. -/
  | invalidOpcode (h : (decode s.fmt (s.mem.read s.pc)).2 < s.capacity)
      (hd : decodeInstr s.fmt (s.mem.read s.pc) =
        .undefinedOpcode (decode s.fmt (s.mem.read s.pc)).1 (decode s.fmt (s.mem.read s.pc)).2) :
      StepEffect s (s.advance.raise (s.faultRecord s.pc .invalidOpcode .absent))
  /-- The instruction runs. -/
  | instr (i : Instr) (u : State) (h : i.operand < s.capacity)
      (hd : decodeInstr s.fmt (s.mem.read s.pc) = .instr i) (he : EffectOf s i u) : StepEffect s u

/-- What the fetched word does is one of the three. -/
theorem runWord_fetch_cases {s u : State} (h : runWord s.fetch s = .next u) : StepEffect s u := by
  have hf : s.fetch = s.mem.read s.pc := rfl
  rw [hf] at h
  unfold runWord at h
  split at h
  · next i hd =>
    obtain ⟨_, hop⟩ := (decodeInstr_eq_instr_iff _ _ _).mp hd
    rcases exec_cases h with ⟨hlt, he⟩ | ⟨hle, rfl⟩
    · exact .instr i u hlt hd he
    · exact .invalidAddress (hop ▸ hle)
  · next op a hd =>
    obtain ⟨rfl, rfl⟩ := decodeInstr_eq_undefined hd
    rw [execUndefined_eq] at h
    cases h
    rcases State.checked_cases s (decode s.fmt (s.mem.read s.pc)).2
        fun _ => s.advance.raise (s.faultRecord s.pc .invalidOpcode .absent) with ⟨hlt, he⟩ | ⟨hle, he⟩
    · rw [he]; exact .invalidOpcode hlt hd
    · rw [he]; exact .invalidAddress hle

/-- The fetched word always answers a next state. -/
theorem runWord_next (w : Int) (s : State) : ∃ u, runWord w s = .next u := by
  unfold runWord
  split
  · exact ⟨_, exec_eq _ _⟩
  · exact ⟨_, execUndefined_eq _ _⟩

/-- What a transition can be: a turn of the port for a waiting core, or an enabled step of the core; the implicit-halt
check comes last. -/
theorem step_cases {s t : State} (h : step s = .next t) :
    s.status = .running ∧
    ((∃ r, s.wait = some r ∧ t = (s.answerRead (s.pc - 1) r.operand).endStep) ∨
      (s.wait = none ∧ s.pc < s.capacity ∧ ∃ u, StepEffect s u ∧ t = u.endStep)) := by
  unfold step cycle at h
  split at h
  · cases h
  · cases h
  · next hs =>
    refine ⟨hs, ?_⟩
    split at h
    · next r hr =>
      cases h
      exact .inl ⟨r, hr, rfl⟩
    · next hw =>
      unfold runStep at h
      split at h
      · next hpc =>
        obtain ⟨u, hu⟩ := runWord_next s.fetch s
        rw [hu] at h
        cases h
        exact .inr ⟨hw, hpc, u, runWord_fetch_cases hu, rfl⟩
      · cases h

/-- An enabled step of the core, forwards. -/
theorem step_of_enabled {s : State} (hs : s.status = .running) (hw : s.wait = none) (hpc : s.pc < s.capacity) :
    step s = endOutcome (runWord s.fetch s) := by
  unfold step cycle
  simp [hs, hw, runStep, hpc]

/-- A turn of the port, forwards. -/
theorem step_of_wait {s : State} {r : ReadPending} (hs : s.status = .running) (hw : s.wait = some r) :
    step s = .next (s.answerRead (s.pc - 1) r.operand).endStep := by
  unfold step cycle
  simp [hs, hw, State.resumeRead]

end Sys2Proof.Machine
end

