-- ==== Sys2Proof/Tests/Slice0.lean ====
section
/-! SUPPORT. Small tests of the model, one step each. Expected results come from spec/95_test_vectors.md (named by the
vector's id) or from the rule named; and a witness for the hypotheses of each statement. -/

namespace Sys2Proof.Tests

open Sys2Proof.Machine Sys2Proof.Claims

/-- The next state, where there is one. -/
def nextOf (o : Host.Outcome State Fault Refusal) : Option State :=
  match o with
  | .next s => some s
  | .fault _ => none
  | .refused _ => none

/-- The stop, where there is one. -/
def faultOf (o : Host.Outcome State Fault Refusal) : Option Fault :=
  match o with
  | .fault f => some f
  | .next _ => none
  | .refused _ => none

/-- The reset state over the memory `m`, in the format `fmt` with the accumulator `acc`: the conventions of
95_test_vectors.md. -/
def before (fmt : Format) (acc : Int) (m : Memory) : State := { State.reset with fmt := fmt, acc := acc, mem := m }

/-- The same with the port's turns fixed. -/
def withInputs (fmt : Format) (m : Memory) (es : List PortEvent) : State :=
  { State.reset with fmt := fmt, mem := m, inputs := es }

/-- `acc`, `pc`, status and fault after one step. -/
def after (s : State) : Option (Int × Nat × Status × Option FaultRecord) :=
  (nextOf (step s)).map fun t => (t.acc, t.pc, t.status, t.fault)

/-- The word at `a`, `pc`, `out` and status after one step. -/
def wordAfter (a : Nat) (s : State) : Option (Int × Nat × List Int × Status) :=
  (nextOf (step s)).map fun t => (t.mem.read a, t.pc, t.out, t.status)

/-! ### WellFormed: an ill-formed term for its check -/

theorem test_wf_operand_old : (Instr.read 100).wf .old = false ∧ (Instr.read 99).wf .old = true := by decide
theorem test_wf_operand_new : (Instr.halt 1000).wf .new = false ∧ (Instr.halt 999).wf .new = true := by decide

/-! ### Decoder: DEC-1 to DEC-14, and a word of each row from spec/opcode_table.json -/

theorem test_decode_old : decode .old 1007 = (10, 7) ∧ decode .old (-1007) = (10, 7) ∧ decode .old 0 = (0, 0) ∧
    decode .old 9999 = (99, 99) ∧ decode .old (-9999) = (99, 99) ∧ decode .old 4300 = (43, 0) ∧
    decode .old 99 = (0, 99) ∧ decode .old 10007 = (100, 7) := by decide
theorem test_decode_new : decode .new 10007 = (10, 7) ∧ decode .new 43000 = (43, 0) ∧ decode .new 99999 = (99, 999) ∧
    decode .new (-21250) = (21, 250) ∧ decode .new 999 = (0, 999) ∧ decode .new 1007 = (1, 7) := by decide
theorem test_decode_rows_old :
    decodeInstr .old 1001 = .instr (.read 1) ∧ decodeInstr .old 1102 = .instr (.write 2) ∧
    decodeInstr .old 2003 = .instr (.load 3) ∧ decodeInstr .old 2104 = .instr (.store 4) ∧
    decodeInstr .old 3005 = .instr (.add 5) ∧ decodeInstr .old 3106 = .instr (.subtract 6) ∧
    decodeInstr .old 3207 = .instr (.divide 7) ∧ decodeInstr .old 3308 = .instr (.multiply 8) ∧
    decodeInstr .old 4009 = .instr (.branch 9) ∧ decodeInstr .old 4110 = .instr (.branchNeg 10) ∧
    decodeInstr .old 4211 = .instr (.branchZero 11) ∧ decodeInstr .old (-4300) = .instr (.halt 0) := by decide
theorem test_decode_rows_new :
    decodeInstr .new 10001 = .instr (.read 1) ∧ decodeInstr .new 11102 = .instr (.write 102) ∧
    decodeInstr .new 20003 = .instr (.load 3) ∧ decodeInstr .new 21104 = .instr (.store 104) ∧
    decodeInstr .new 30005 = .instr (.add 5) ∧ decodeInstr .new 31106 = .instr (.subtract 106) ∧
    decodeInstr .new 32007 = .instr (.divide 7) ∧ decodeInstr .new 33108 = .instr (.multiply 108) ∧
    decodeInstr .new 40009 = .instr (.branch 9) ∧ decodeInstr .new 41110 = .instr (.branchNeg 110) ∧
    decodeInstr .new 42011 = .instr (.branchZero 11) ∧ decodeInstr .new (-43999) = .instr (.halt 999) := by decide
theorem test_encode : encode .old (.read 7) = 1007 ∧ encode .new (.read 7) = 10007 ∧ encode .new (.store 250) = 21250 := by
  decide
theorem test_table_word : decodeTableWord 16 1005 = some (.read 5) ∧ decodeTableWord 24 10005 = some (.read 5) ∧
    decodeTableWord 16 43 = none := by decide
theorem test_withFetchWord_runs : after (State.reset.withFetchWord 24 43000) = some (0, 1, .halted, none) := by decide

/-! ### I/O: IO-1, IO-4, IO-5, IO-9, IO-10, IO-11, IO-14 -/

theorem test_read_stores : wordAfter 5 (withInputs .old [(0, 1005)] [.value 1234]) = some (1234, 1, [], .running) := by
  decide
theorem test_read_rejects : after (withInputs .old [(0, 1005)] [.value 10000]) =
    some (0, 1, .faulted, some ⟨.invalidInput, 0, 1005, 10, 5, .number 10000⟩) := by decide
theorem test_read_malformed : after (withInputs .old [(0, 1005)] [.malformed]) =
    some (0, 1, .faulted, some ⟨.invalidInput, 0, 1005, 10, 5, .malformed⟩) := by decide
theorem test_read_waits : (nextOf (step (withInputs .old [(0, 1005)] [.silent]))).map (fun t => (t.wait, t.pc, t.status)) =
    some (some ⟨5⟩, 1, .running) := by decide
/-- The answer ends the wait; the fault record still names the READ at 0 (R120, R207). -/
theorem test_wait_ends_in_fault : after { withInputs .old [(0, 1005)] [.malformed] with pc := 1, wait := some ⟨5⟩ } =
    some (0, 1, .faulted, some ⟨.invalidInput, 0, 1005, 10, 5, .malformed⟩) := by decide
/-- The implicit halt of a READ at the last address comes when its wait ends (R106, R120). -/
theorem test_wait_ends_at_capacity : wordAfter 5
    { withInputs .old [(249, 1005)] [.value 7] with pc := 250, wait := some ⟨5⟩ } = some (7, 250, [], .halted) := by decide
theorem test_write_emits : wordAfter 9 (before .old 0 [(0, 1109), (9, -42)]) = some (-42, 1, [-42], .running) := by decide
theorem test_write_outside : after { before .new 0 [(0, 11100)] with capacity := 100 } =
    some (0, 0, .faulted, some ⟨.invalidAddress, 0, 11100, 11, 100, .absent⟩) := by decide

/-! ### Data movement: DM-1, DM-2, DM-4, DM-7 -/

theorem test_load : after (before .old 0 [(0, 2007), (7, -15)]) = some (-15, 1, .running, none) := by decide
theorem test_load_itself : after (before .old 0 [(0, 2000)]) = some (2000, 1, .running, none) := by decide
theorem test_store : wordAfter 1 (before .old 4300 [(0, 2101)]) = some (4300, 1, [], .running) := by decide
theorem test_store_outside : after (before .new 5 [(0, 21250)]) =
    some (5, 0, .faulted, some ⟨.invalidAddress, 0, 21250, 21, 250, .absent⟩) := by decide

/-! ### Arithmetic: AR-1, AR-2, AR-7, AR-8, AR-11, AR-12, AR-16, AR-19, AR-22, EX-5, EX-7 -/

theorem test_add : after (before .old 9998 [(0, 3005), (5, 1)]) = some (9999, 1, .running, none) := by decide
theorem test_add_overflows : after (before .old 9990 [(0, 3005), (5, 20)]) =
    some (9990, 1, .faulted, some ⟨.overflow, 0, 3005, 30, 5, .number 10010⟩) := by decide
theorem test_subtract : after (before .old 5 [(0, 3106), (6, 8)]) = some (-3, 1, .running, none) := by decide
theorem test_subtract_overflows : after (before .old (-9999) [(0, 3106), (6, 1)]) =
    some (-9999, 1, .faulted, some ⟨.overflow, 0, 3106, 31, 6, .number (-10000)⟩) := by decide
theorem test_divide_floors : after (before .old (-7) [(0, 3205), (5, 2)]) = some (-4, 1, .running, none) ∧
    after (before .old 7 [(0, 3205), (5, -2)]) = some (-4, 1, .running, none) := by decide
theorem test_divide_by_zero : after (before .old 10 [(0, 3205)]) =
    some (10, 1, .faulted, some ⟨.divisionByZero, 0, 3205, 32, 5, .absent⟩) := by decide
theorem test_multiply : after (before .old 99 [(0, 3304), (4, 101)]) = some (9999, 1, .running, none) := by decide
theorem test_multiply_overflows : after (before .new 317 [(0, 33004), (4, 316)]) =
    some (317, 1, .faulted, some ⟨.overflow, 0, 33004, 33, 4, .number 100172⟩) := by decide

/-! ### Control: CT-1, CT-3, CT-4, CT-6, CT-8, CT-10, CT-12, CT-13, CT-15 -/

theorem test_branch : after (before .old 0 [(0, 4020)]) = some (0, 20, .running, none) := by decide
theorem test_branchNeg : after (before .old (-3) [(0, 4107)]) = some (-3, 7, .running, none) ∧
    after (before .old 0 [(0, 4107)]) = some (0, 1, .running, none) := by decide
theorem test_branchNeg_checks_operand : after (before .new 5 [(0, 41300)]) =
    some (5, 0, .faulted, some ⟨.invalidAddress, 0, 41300, 41, 300, .absent⟩) := by decide
theorem test_branchZero : after (before .old 0 [(0, 4209)]) = some (0, 9, .running, none) ∧
    after (before .old (-1) [(0, 4209)]) = some (-1, 1, .running, none) := by decide
theorem test_halt : after (before .old 0 [(0, -4300)]) = some (0, 1, .halted, none) := by decide
theorem test_halt_checks_operand : after (before .new 0 [(0, 43999)]) =
    some (0, 0, .faulted, some ⟨.invalidAddress, 0, 43999, 43, 999, .absent⟩) := by decide
theorem test_implicit_halt : after { before .old 0 [(0, 7), (249, 2000)] with pc := 249 } = some (7, 250, .halted, none) := by
  decide

/-! ### Faults and priority: FL-1, FL-3, FL-4, FL-7 -/

theorem test_zero_word : after State.reset = some (0, 1, .faulted, some ⟨.invalidOpcode, 0, 0, 0, 0, .absent⟩) := by decide
theorem test_address_before_opcode : after (before .new 0 [(0, 99999)]) =
    some (0, 0, .faulted, some ⟨.invalidAddress, 0, 99999, 99, 999, .absent⟩) := by decide
theorem test_undefined_opcode : after (before .new 0 [(0, 12249)]) =
    some (0, 1, .faulted, some ⟨.invalidOpcode, 0, 12249, 12, 249, .absent⟩) := by decide
theorem test_no_step_once_ended : faultOf (step { State.reset with status := .halted }) = some .runHalted ∧
    faultOf (step { State.reset with status := .faulted }) = some .runFaulted := by decide

/-! ### Loader: LD-1 to LD-6, LD-8, LD-11 to LD-16, LD-18, with a capacity of 3 words where a vector fills memory -/

/-- The loader with capacity `n` and the terminator of 95_test_vectors.md. -/
def cfg (n : Nat) : LoaderConfig := { capacity := n, terminators := ["-99999".toList], whitespace := [' ', '\t'] }

theorem test_load_length : load (cfg 3) ["12345".toList] = .error (.unrecognizedWordLength 1) := by decide
theorem test_load_mixed : load (cfg 3) ["1005".toList, "010005".toList] = .error (.mixedWordFormat 2) := by decide
theorem test_load_signs : load (cfg 3) ["+1007".toList, "-1007".toList, "1007".toList] =
    .ok ⟨[1007, -1007, 1007], .old, 3, []⟩ := by decide
theorem test_load_warns : load (cfg 3) ["010007".toList, "123456".toList, "043000".toList] =
    .ok ⟨[10007, 43000, 0], .new, 2, [⟨2, 123456⟩]⟩ := by decide
theorem test_load_malformed : load (cfg 3) ["1005".toList, "10a5".toList] = .error (.malformedInstruction 2) ∧
    load (cfg 3) ["12 4".toList] = .error (.malformedInstruction 1) := by decide
theorem test_load_blank_and_terminator :
    load (cfg 3) [[], "  1005  ".toList, [], "-99999".toList, "4300".toList] = .ok ⟨[1005, 0, 0], .old, 1, []⟩ := by decide
theorem test_load_too_large : load (cfg 1) ["1005".toList, "10a5".toList] = .error (.programTooLarge 2) ∧
    load (cfg 1) ["010005".toList, "123456".toList] = .error (.programTooLarge 2) := by decide
theorem test_load_zero_and_sign : load (cfg 1) ["-0000".toList] = .ok ⟨[0], .old, 1, []⟩ ∧
    load (cfg 3) ["1005".toList, "+".toList] = .error (.mixedWordFormat 2) := by decide
theorem test_load_other_terminator :
    load { cfg 3 with terminators := ["-9999".toList] } ["1005".toList, "-9999".toList, "4300".toList] =
      .ok ⟨[1005, 0, 0], .old, 1, []⟩ ∧
    load (cfg 3) ["1005".toList, "-9999".toList, "4300".toList] = .ok ⟨[1005, -9999, 4300], .old, 3, []⟩ := by decide
theorem test_load_empty : load (cfg 3) ["-99999".toList, "1005".toList] = .ok ⟨[0, 0, 0], .old, 0, []⟩ := by decide

/-! ### Launch and result -/

/-- A launch that breaks the premise gives no state (70_reset_and_hazards.md R258). -/
theorem test_launch_refused : nextOf (launch 3 [1005, 10000, 0] .old []) = none ∧ nextOf (launch 3 [1005] .old []) = none := by
  decide
theorem test_launch : (nextOf (launch 3 [1005, 4300, 0] .old [])).map (fun s => (s.mem, s.capacity, s.pc)) =
    some ([(0, 1005), (1, 4300)], 3, 0) := by decide
theorem test_result : State.reset.result = none ∧
    ({ State.reset with status := .halted, capacity := 2, mem := [(1, 5)] } : State).result.map RunResult.memory =
      some [0, 5] := by decide

/-- `run(lines)` hands the load's warnings and the run's fault on (60_exceptions.md R212). -/
theorem test_run_reports :
    (match boot (cfg 3) ["100000".toList] [] with
      | .ok b => (nextOf b.launched).map fun s => (s.fmt, s.pc)
      | .error _ => none) = some (.new, 0) ∧
    ((runReport ⟨[0, 0, 0], .new, 0, [⟨1, 100000⟩]⟩ { State.reset with status := .faulted }).map fun x => x.warnings) =
      some [⟨1, 100000⟩] := by decide

/-! ### Witnesses: a state and operands that meet the hypotheses of each statement, clause by clause -/

/-- One word in memory and nothing else: the states of the witnesses below. -/
theorem inv_before {w acc : Int} (hw : w ≠ 0) (hd : inDomain .old w) (ha : inDomain .old acc) :
    Inv (before .old acc [(0, w)]) where
  memory :=
    { canonical := by simp [before, State.reset, Memory.wf, Memory.wfFrom, hw]
      bounded := by simp [before, State.reset, defaultCapacity]
      inDomain := fun a => by
        simp only [before, Memory.read]
        split
        · exact hd
        · exact inDomain_zero _ }
  registers := { accInDomain := ha, pcInRange := Nat.zero_le _, pcFetchable := fun _ _ => by simp [before, State.reset, defaultCapacity] }
  fault := by simp [FaultOk, before, State.reset]
  wait := by simp [WaitOk, before, State.reset]
  outInDomain := by simp [before, State.reset]

theorem fetches_of {s : State} {i : Instr} (hs : s.status = .running) (hw : s.wait = none)
    (h : decide (s.pc < s.capacity) = true ∧ decodeInstr s.fmt (s.mem.read s.pc) = .instr i) : Fetches s i :=
  ⟨⟨hs, hw, of_decide_eq_true h.1⟩, h.2⟩

theorem witness_DecodeOfEncodeIsTheInstruction : (Instr.load 999).wf .new = true ∧ (Instr.load 99).wf .old = true ∧
    decodeInstr .old (-2099) = .instr (.load 99) := by decide
theorem witness_InDomainWordIsPlusOrMinusItsEncoding : 99 < Format.old.opDiv ∧ inDomain .old (-9999) = true ∧
    inDomain .new 99999 = true := by decide
theorem witness_StepRunsTheDecodedInstruction : Fetches (before .old 0 [(0, 2099)]) (.load 99) :=
  fetches_of rfl rfl (by decide)
theorem witness_OperandOutsideMemoryFaultsFirst : Enabled (before .new 0 [(0, 99250)]) ∧
    (before .new 0 [(0, 99250)]).capacity ≤
      (decode .new ((before .new 0 [(0, 99250)]).mem.read (before .new 0 [(0, 99250)]).pc)).2 :=
  ⟨⟨rfl, rfl, by decide⟩, by decide⟩
theorem witness_UndefinedOpcodeFaults : Enabled (before .new 0 [(0, 12249)]) ∧
    (decode .new ((before .new 0 [(0, 12249)]).mem.read 0)).2 < (before .new 0 [(0, 12249)]).capacity ∧
    (decode .new ((before .new 0 [(0, 12249)]).mem.read 0)).1 ∉ opcodes :=
  ⟨⟨rfl, rfl, by decide⟩, by decide⟩
theorem witness_UndefinedOpcodeFaults_zero : Enabled State.reset ∧ State.reset.mem.read State.reset.pc = 0 :=
  ⟨⟨rfl, rfl, by decide⟩, by decide⟩
theorem witness_NoStepWhereNoneIsEnabled : ({ State.reset with pc := 250 } : State).capacity ≤ 250 ∧
    ({ State.reset with pc := 250 } : State).status = .running ∧ ({ State.reset with pc := 250 } : State).wait = none := by
  decide
/-- The step from the last address that reaches `CAPACITY`. -/
theorem witness_ReachingCapacityHalts : Fetches { before .old 0 [(249, 2000)] with pc := 249 } (.load 0) ∧
    (nextOf (exec (.load 0) { before .old 0 [(249, 2000)] with pc := 249 })).map
      (fun u => (u.status, u.wait, decide (u.pc = u.capacity))) = some (.running, none, true) :=
  ⟨fetches_of rfl rfl (by decide), by decide⟩
theorem witness_WaitEndsOnlyByThePortsAnswer :
    ∀ e ∈ [PortEvent.silent, .malformed, .value 10000, .value 9999],
      ({ withInputs .old [(249, 1005)] [e] with pc := 250, wait := some ⟨5⟩ } : State).portEvent = e := by decide
theorem witness_StoredWordRunsNext : Fetches (before .old 4300 [(0, 2101)]) (.store 1) ∧
    (before .old 4300 [(0, 2101)]).mem.wf = true :=
  ⟨fetches_of rfl rfl (by decide), by decide⟩
/-- Each clause of the pc table: an operand at the capacity, the three branches taken, and a fall-through. -/
theorem witness_PcAfterAnInstruction :
    after (before .new 0 [(0, 40250)]) = some (0, 0, .faulted, some ⟨.invalidAddress, 0, 40250, 40, 250, .absent⟩) ∧
    after (before .new 0 [(0, 40249)]) = some (0, 249, .running, none) ∧
    after (before .new (-1) [(0, 41249)]) = some (-1, 249, .running, none) ∧
    after (before .new 0 [(0, 42249)]) = some (0, 249, .running, none) ∧
    after (before .new 1 [(0, 42249)]) = some (1, 1, .running, none) :=
  ⟨by decide, by decide, by decide, by decide, by decide⟩
theorem witness_Enabled : Enabled (before .new 0 [(0, 40249)]) := ⟨rfl, rfl, by decide⟩
/-- The operand check of every instruction, at both sides of its boundary. -/
theorem witness_ChecksOperand : 249 < State.reset.capacity ∧ State.reset.capacity ≤ 250 := by decide
theorem witness_ReadStoresTheAnswer :
    (∀ e ∈ [PortEvent.malformed, .value 10000, .value 9999, .silent], (withInputs .old [(0, 1005)] [e]).portEvent = e) ∧
    inDomain .old 9999 = true ∧ inDomain .old 10000 = false ∧ (withInputs .old [(0, 1005)] []).mem.wf = true := by decide
theorem witness_ReadWithoutAnswerWaits : 249 < (withInputs .old [] [.silent]).capacity ∧
    (withInputs .old [] [.silent]).portEvent = .silent := by decide
theorem witness_StoreWritesTheAccumulator : 249 < (before .new 5 [(0, 21249)]).capacity ∧
    (before .new 5 [(0, 21249)]).mem.wf = true := by decide
/-- Both clauses of ADD, SUBTRACT and MULTIPLY at the edge of the OLD domain. -/
theorem witness_CommitsOrOverflows : inDomain .old (9998 + 1) = true ∧ inDomain .old (9999 + 1) = false ∧
    inDomain .old (-9998 - 1) = true ∧ inDomain .old (-9999 - 1) = false ∧
    inDomain .old (99 * 101) = true ∧ inDomain .old (100 * 100) = false := by decide
theorem witness_DivideFloorsOrFaults : (before .old 10 [(0, 3205)]).mem.read 5 = 0 ∧
    (before .old 10 [(0, 3205), (5, -1)]).mem.read 5 ≠ 0 ∧ inDomain .old (-9999) = true := by decide
theorem witness_DivisionRoundsDown : (before .old (-7) [(0, 3205), (5, 2)]).mem.read 5 ≠ 0 ∧
    (nextOf (exec (.divide 5) (before .old (-7) [(0, 3205), (5, 2)]))).isSome = true := by decide
theorem witness_OverflowExactlyOutsideTheDomain : (before .old 9999 [(0, 3005), (5, 1)]).fault = none ∧
    inDomain .old (before .old 9999 [(0, 3005), (5, 1)]).acc = true ∧
    (nextOf (exec (.add 5) (before .old 9999 [(0, 3005), (5, 1)]))).isSome = true := by decide
theorem witness_Frames :
    (∀ i ∈ [Instr.load 5, .add 5, .subtract 5, .divide 5, .multiply 5, .store 5, .write 5, .branch 5, .branchNeg 5,
      .branchZero 5, .halt 5], (nextOf (exec i (before .old 1 [(5, 1)]))).isSome = true) ∧
    (nextOf (exec (.read 5) (withInputs .old [] [.value 1]))).isSome = true := by decide
/-- A transition that changes the accumulator, one that changes memory, one that emits, one that moves the input
channel, one that starts a wait: the hypotheses of the rules of the whole machine. -/
theorem witness_WholeMachine :
    after (before .old 0 [(0, 2000)]) = some (2000, 1, .running, none) ∧
    wordAfter 9 (before .old 5 [(0, 2109)]) = some (5, 1, [], .running) ∧
    wordAfter 0 (before .old 5 [(0, 1100)]) = some (1100, 1, [1100], .running) ∧
    (nextOf (step (withInputs .old [(0, 1005)] [.silent]))).map (fun t => (t.inputs, t.wait)) = some ([], some ⟨5⟩) := by
  decide
theorem witness_OnlyHaltOrTheEndOfMemoryHalts : after (before .old 0 [(0, 4300)]) = some (0, 1, .halted, none) ∧
    after { before .old 0 [(249, 2000)] with pc := 249 } = some (0, 250, .halted, none) := by decide
/-- A state in the invariant whose step faults, with its record: DIVIDE by an empty word. -/
theorem witness_FaultsArePrecise : Inv (before .old 10 [(0, 3205)]) ∧
    after (before .old 10 [(0, 3205)]) = some (10, 1, .faulted, some ⟨.divisionByZero, 0, 3205, 32, 5, .absent⟩) :=
  ⟨inv_before (by decide) (by decide) (by decide), by decide⟩
/-- A state in the invariant that waits. -/
theorem witness_FaultRecordTellsTheCause : Inv { withInputs .old [(0, 1005)] [.malformed] with pc := 1, wait := some ⟨5⟩ } where
  memory :=
    let m := (inv_before (w := 1005) (acc := 0) (by decide) (by decide) (by decide)).memory
    { canonical := m.canonical, bounded := m.bounded, inDomain := m.inDomain }
  registers := { accInDomain := rfl, pcInRange := by decide, pcFetchable := fun _ h => by cases h }
  fault := by simp [FaultOk, withInputs, State.reset]
  wait := by rintro r ⟨⟩; exact ⟨rfl, by decide, by decide, by decide⟩
  outInDomain := by simp [withInputs, State.reset]
theorem witness_StepKeepsTheInvariant : Inv (before .old 7 [(0, 2000)]) ∧
    (nextOf (step (before .old 7 [(0, 2000)]))).isSome = true :=
  ⟨inv_before (by decide) (by decide) (by decide), by decide⟩
theorem witness_StepKeepsMemoryCanonical : (before .old 0 [(0, 2100)]).mem.wf = true ∧
    wordAfter 0 (before .old 0 [(0, 2100)]) = some (0, 1, [], .running) := by decide
theorem witness_OperandReachByFormat : Enabled (before .new 0 [(0, 43250)]) ∧ (before .new 0 [(0, 43250)]).capacity = 250 ∧
    Enabled { before .old 0 [(0, 4399)] with capacity := 100 } :=
  ⟨⟨rfl, rfl, by decide⟩, rfl, ⟨rfl, rfl, by decide⟩⟩
theorem witness_RunStartsInTheResetState : load (cfg 3) ["1005".toList] = .ok ⟨[1005, 0, 0], .old, 1, []⟩ := by decide
theorem witness_LaunchMeetsTheInvariant : (nextOf (launch 3 [1005, 4300, 0] .old [.value 7])).isSome = true := by decide
/-- The edge of the premise: the largest NEW word and one past it, and one word too few. -/
theorem witness_LaunchExactlyUnderThePremise : launchPremise 2 [99999, -99999] .new = true ∧
    launchPremise 2 [100000, 0] .new = false ∧ launchPremise 2 [0] .new = false := by decide
theorem witness_WarningsOnlyForSixDigitMagnitudes : load (cfg 3) ["099999".toList, "100000".toList, "-999999".toList] =
    .ok ⟨[99999, 0, 0], .new, 1, [⟨2, 100000⟩, ⟨3, -999999⟩]⟩ := by decide
theorem witness_LinesAfterATerminatorAreNotRead : Terminator (cfg 3) " -99999".toList := by
  unfold Terminator Blank; decide
theorem witness_FirstSubstantiveLineFixesTheFormat : Blank (cfg 3) " ".toList ∧ Substantive (cfg 3) "010005".toList ∧
    Substantive (cfg 3) "12345".toList ∧ load (cfg 3) [" ".toList, "12345".toList] = .error (.unrecognizedWordLength 2) := by
  unfold Substantive Blank; decide
theorem witness_LoadReportsItsFirstError :
    load (cfg 3) ["1005".toList, "10a5".toList, "1".toList] = .error (.malformedInstruction 2) := by decide
/-- A first and a later line, each with and without the width, and at and below the capacity. -/
theorem witness_LoadReportsItsFirstError_reached :
    (load (cfg 1) [] = .ok ⟨[0], .old, 0, []⟩ ∧ Substantive (cfg 1) "12345".toList ∧ Substantive (cfg 1) "10a5".toList) ∧
    load (cfg 1) ["1005".toList] = .ok ⟨[1005], .old, 1, []⟩ ∧
    (¬Terminator (cfg 1) "1005".toList ∧ Substantive (cfg 1) "1005".toList ∧ Substantive (cfg 1) "10005".toList) := by decide
theorem witness_FitsFormat : FitsFormat (cfg 3) ["1005".toList] ⟨[1005, 0, 0], .old, 1, []⟩ "4300".toList ∧
    ¬FitsFormat (cfg 3) ["1005".toList] ⟨[1005, 0, 0], .old, 1, []⟩ "043000".toList ∧
    FitsFormat (cfg 3) [] ⟨[0, 0, 0], .old, 0, []⟩ "10a5".toList ∧
    ¬FitsFormat (cfg 3) [] ⟨[0, 0, 0], .old, 0, []⟩ "12345".toList := by
  unfold FitsFormat
  exact ⟨by decide, by decide, by decide, by decide⟩
/-- Accepted and skipped lines, and what stands after a terminator. -/
theorem witness_LoadedImageFitsTheLaunchPremise :
    load (cfg 3) ["010007".toList, [], "123456".toList, "-99999".toList, "1".toList] =
      .ok ⟨[10007, 0, 0], .new, 1, [⟨3, 123456⟩]⟩ ∧
    substantiveLines (cfg 3) ["010007".toList, [], "123456".toList, "-99999".toList, "1".toList] =
      [("010007".toList, 1), ("123456".toList, 3)] := by decide
theorem witness_SignedDecimal : SignedDecimal "-0012".toList (-12) ∧ SignedDecimal "+7".toList 7 :=
  ⟨⟨['-'], [0, 0, 1, 2], by decide, by decide, by decide, .inr ⟨rfl, by simp [Nat.ofDigits]⟩⟩,
    ⟨['+'], [7], by decide, by decide, by decide, .inl ⟨.inr rfl, by simp⟩⟩⟩
theorem witness_Trims : Trims [' ', '\t'] " 12 4\t".toList "12 4".toList :=
  ⟨[' '], ['\t'], by decide, by simp, by simp, fun c h => by cases h; decide, fun c h => by cases h; decide⟩
theorem witness_EmptyProgramFaultsAtOnce : Blank (cfg 3) [] ∧ Terminator (cfg 3) "-99999".toList := by
  unfold Terminator Blank; decide
theorem witness_ResultExactlyWhenTheRunHasEnded : Ended { State.reset with status := .faulted } := .inr rfl
theorem witness_RunningMachineAlwaysSteps : Inv (before .old 0 [(0, 4000)]) ∧ (before .old 0 [(0, 4000)]).status = .running :=
  ⟨inv_before (by decide) (by decide) (by decide), rfl⟩

end Sys2Proof.Tests
end

section
/-! PROOFS of 00_scope.md: what the two word formats fix (R7, R12). -/

namespace Sys2Proof

/-- The OLD domain at its exact bounds. -/
theorem inDomain_old_iff (v : Int) : inDomain .old v ↔ -9999 ≤ v ∧ v ≤ 9999 := by
  simp [inDomain_iff]

/-- The NEW domain at its exact bounds. -/
theorem inDomain_new_iff (v : Int) : inDomain .new v ↔ -99999 ≤ v ∧ v ≤ 99999 := by
  simp [inDomain_iff]

/-- Settles O1: the table's constants are the format's own, and each domain is the interval its `MAXMAG` spans. -/
theorem formatsFixFourConstants : Obligations.FormatsFixFourConstants :=
  ⟨Format.old_textWidth, Format.old_maxMag, Format.old_opDiv,
    Format.new_textWidth, Format.new_maxMag, Format.new_opDiv, inDomain_old_iff, inDomain_new_iff⟩

end Sys2Proof
end

section
/-! PROOFS of 10_state.md: what the output log records (R31) and what a run hands back (R40). -/

namespace Sys2Proof.Machine

open Sys2Proof.Claims

/-! ### The output log -/

/-- A turn of the port never writes the output log. -/
@[simp] theorem State.answerRead_out (s : State) (p a : Nat) : (s.answerRead p a).out = s.out := by
  rcases s.answerRead_cases p a with ⟨-, h⟩ | ⟨v, -, -, h⟩ | ⟨v, -, -, h⟩ | ⟨-, h⟩ <;> simp [h]

/-- An instruction other than WRITE leaves the output log as it is, in each way its effect can come out. -/
theorem EffectOf.out_of_ne_write {s u : State} {i : Instr} (h : EffectOf s i u) (hi : ∀ a, i ≠ .write a) :
    u.out = s.out := by
  cases h
  case write a => exact absurd rfl (hi a)
  all_goals simp

/-- WRITE appends the word at its operand. -/
theorem EffectOf.out_of_write {s u : State} {a : Nat} (h : EffectOf s (.write a) u) :
    u.out = s.out ++ [s.mem.read a] := by
  cases h
  rfl

/-- A word that decodes to a WRITE, whose operand passes the address check, appends the word named. -/
theorem StepEffect.out_of_write {s u : State} {a : Nat} (h : StepEffect s u)
    (hd : decodeInstr s.fmt (s.mem.read s.pc) = .instr (.write a)) (ha : a < s.capacity) :
    u.out = s.out ++ [s.mem.read a] := by
  cases h with
  | invalidAddress hle =>
    obtain ⟨-, hop⟩ := (decodeInstr_eq_instr_iff _ _ _).mp hd
    rw [Instr.operand_write] at hop
    omega
  | invalidOpcode _ hu => simp [hd] at hu
  | instr i _ _ hi he =>
    obtain rfl : Instr.write a = i := by simpa [hd] using hi
    exact he.out_of_write

/-- Every other word leaves the output log as it is. -/
theorem StepEffect.out_of_no_write {s u : State} (h : StepEffect s u)
    (hno : ∀ a, decodeInstr s.fmt (s.mem.read s.pc) = .instr (.write a) → ¬a < s.capacity) :
    u.out = s.out := by
  cases h with
  | invalidAddress => simp
  | invalidOpcode => simp
  | instr i _ hlt hi he =>
    refine he.out_of_ne_write ?_
    rintro a rfl
    exact hno a hi hlt

/-- Settles O37: a turn of the port never writes the log, and an enabled step does so exactly for a WRITE in range. -/
theorem outputGrowsOnlyByWrite : Obligations.OutputGrowsOnlyByWrite := by
  refine ⟨rfl, fun s t h => ?_⟩
  obtain ⟨hrun, ⟨r, hw, rfl⟩ | ⟨hw, hpc, u, hu, rfl⟩⟩ := step_cases h
  · refine .inr ⟨?_, by simp⟩
    rintro ⟨a, ⟨⟨-, hnone, -⟩, -⟩, -⟩
    simp [hw] at hnone
  · rw [State.endStep_out]
    by_cases hwrite : ∃ a, Fetches s (.write a) ∧ a < s.capacity
    · obtain ⟨a, hfetch, ha⟩ := hwrite
      exact .inl ⟨a, hfetch, ha, hu.out_of_write hfetch.2 ha⟩
    · exact .inr ⟨hwrite, hu.out_of_no_write fun a hd ha => hwrite ⟨a, ⟨⟨hrun, hw, hpc⟩, hd⟩, ha⟩⟩

/-! ### The result of a run -/

/-- A block of words has the length asked for. -/
@[simp] theorem Memory.length_words (m : Memory) (a n : Nat) : (m.words a n).length = n := by
  simp [Memory.words_eq]

/-- A block of words holds at each index the word at that distance from its start. -/
theorem Memory.getElem?_words (m : Memory) (a : Nat) {n k : Nat} (h : k < n) :
    (m.words a n)[k]? = some (m.read (a + k)) := by
  simp [Memory.words_eq, h]

/-- A running core has no result. -/
theorem State.result_of_running {s : State} (h : s.status = .running) : s.result = none := by
  simp [State.result, h]

/-- Once the run has ended, the result holds the registers and the words of all of memory. -/
theorem State.result_of_ended {s : State} (h : Ended s) :
    s.result = some ⟨s.acc, s.pc, s.status, s.fault, s.out, s.mem.words 0 s.capacity⟩ := by
  rcases h with h | h <;> simp [State.result, h]

/-- Settles O58: the result of an ended run, field by field, its memory read off word by word. -/
theorem resultExactlyWhenTheRunHasEnded : Obligations.ResultExactlyWhenTheRunHasEnded := by
  refine fun s => ⟨State.result_of_running, fun h => ⟨_, State.result_of_ended h, rfl, rfl, rfl, rfl, rfl, ?_, ?_⟩⟩
  · exact Memory.length_words _ _ _
  · intro a ha
    simpa using Memory.getElem?_words s.mem 0 ha

end Sys2Proof.Machine
end

section
/-! PROOFS of 30_encoding.md: the decoder is a function of the magnitude (R73). -/

namespace Sys2Proof

/-- Under OLD the operand is the last two decimal digits. -/
theorem decode_old (w : Int) : decode .old w = (w.natAbs / 100, w.natAbs % 100) := by
  rw [decode, Format.old_opDiv]

/-- Under NEW the operand is the last three decimal digits. -/
theorem decode_new (w : Int) : decode .new w = (w.natAbs / 1000, w.natAbs % 1000) := by
  rw [decode, Format.new_opDiv]

/-- A word and its negative have the same fields, since they have the same magnitude. -/
@[simp] theorem decode_neg (fmt : Format) (w : Int) : decode fmt (-w) = decode fmt w := by
  rw [decode, decode, Int.natAbs_neg]

/-- Settles O2: each format splits the magnitude by its own divisor, and negation keeps the magnitude. -/
theorem decodeSplitsTheMagnitude : Obligations.DecodeSplitsTheMagnitude :=
  fun w => ⟨decode_old w, decode_new w, fun fmt => decode_neg fmt w⟩

end Sys2Proof
end

section
/-! PROOFS of 40_execution_cycle.md: the operand check comes before the dispatch on the opcode (R103). -/

namespace Sys2Proof.Machine

open Sys2Proof.Claims

/-- A word whose operand fails the address check raises InvalidAddress: both arms of the dispatch, an instruction's and
the undefined opcode's, stand behind the check. -/
theorem runWord_of_le {s : State} {w : Int} (h : s.capacity ≤ (decode s.fmt w).2) :
    runWord w s = .next (s.raise (s.faultRecord s.pc .invalidAddress .absent)) := by
  unfold runWord
  split
  · next i hd =>
    obtain ⟨-, hop⟩ := (decodeInstr_eq_instr_iff _ _ _).mp hd
    exact exec_of_le (hop ▸ h)
  · next op a hd =>
    obtain ⟨rfl, rfl⟩ := decodeInstr_eq_undefined hd
    rw [execUndefined_eq, State.checked_of_le _ h]

/-- A fault stays as it is through step 6, which halts only a running core. -/
theorem endOutcome_raise (s : State) (r : FaultRecord) : endOutcome (.next (s.raise r)) = .next (s.raise r) := by
  rw [endOutcome, State.endStep_of_ne_running (by simp)]

/-- An enabled step whose fetched operand fails the address check does nothing but raise InvalidAddress. -/
theorem step_of_le {s : State} (hs : Enabled s) (h : s.capacity ≤ (decode s.fmt (s.mem.read s.pc)).2) :
    step s = .next (s.raise (s.faultRecord s.pc .invalidAddress .absent)) := by
  obtain ⟨hrun, hwait, hpc⟩ := hs
  have hfetch : s.fetch = s.mem.read s.pc := rfl
  rw [step_of_enabled hrun hwait hpc, hfetch, runWord_of_le h, endOutcome_raise]

/-- Settles O9: the record raised is that of the instruction at the pc, so its operand is the one fetched. -/
theorem operandOutsideMemoryFaultsFirst : Obligations.OperandOutsideMemoryFaultsFirst :=
  fun s hs h => ⟨s.faultRecord s.pc .invalidAddress .absent, rfl, rfl, step_of_le hs h⟩

end Sys2Proof.Machine
end

section
/-! PROOFS of 41_io.md: what WRITE does to the output (R121). -/

namespace Sys2Proof.Machine

open Sys2Proof.Claims

/-- A constructor of instructions is spelled by the opcode it carries: the decoder compares fields, not signs or formats. -/
theorem spelledBy_of_fields {op : Nat} {mk : Nat → Instr} (hopcode : ∀ a, (mk a).opcode = op)
    (hoperand : ∀ a, (mk a).operand = a) : SpelledBy op mk := by
  intro fmt w a
  rw [decodeInstr_eq_instr_iff, hopcode, hoperand, Prod.ext_iff, eq_comm, @eq_comm _ a]

/-- Every instruction stands behind the address check on its operand. -/
theorem checksOperand_of_operand {mk : Nat → Instr} (hoperand : ∀ a, (mk a).operand = a) : ChecksOperand mk := by
  intro s a hle
  exact ⟨s.faultRecord s.pc .invalidAddress .absent, rfl, exec_of_le ((hoperand a).symm ▸ hle)⟩

/-- Settles O18: WRITE's fields are 11 and its operand, and behind the address check its effect is to emit. -/
theorem writeEmitsTheWord : Obligations.WriteEmitsTheWord :=
  ⟨spelledBy_of_fields Instr.opcode_write Instr.operand_write, checksOperand_of_operand Instr.operand_write,
    fun _ a ha => exec_of_lt (i := .write a) ha⟩

end Sys2Proof.Machine
end

section
/-! PROOFS of 42_data_movement.md: what LOAD and STORE move (R130, R131). -/

namespace Sys2Proof.Machine

open Sys2Proof.Claims

/-- Settles O19: LOAD's fields are 20 and its operand, and behind the address check its effect is to set the accumulator. -/
theorem loadReadsTheWord : Obligations.LoadReadsTheWord :=
  ⟨spelledBy_of_fields Instr.opcode_load Instr.operand_load, checksOperand_of_operand Instr.operand_load,
    fun _ a ha => exec_of_lt (i := .load a) ha⟩

/-- Settles O20: the memory STORE leaves is the one its write returns, canonical again, with only the word named changed. -/
theorem storeWritesTheAccumulator : Obligations.StoreWritesTheAccumulator := by
  refine ⟨spelledBy_of_fields Instr.opcode_store Instr.operand_store,
    checksOperand_of_operand Instr.operand_store, fun s a ha hwf => ⟨s.mem.write a s.acc, ?_, ?_, ?_, ?_⟩⟩
  · exact Memory.write_wf a s.acc hwf
  · exact Memory.read_write_same s.acc hwf
  · exact fun b hb => Memory.read_write_other s.mem s.acc hb
  · exact exec_of_lt (i := .store a) ha

end Sys2Proof.Machine
end

section
/-! PROOFS of 44_control.md: where the branches leave the pc (R160-R162), and how HALT ends the run (R163). -/

namespace Sys2Proof.Machine

open Sys2Proof.Claims

/-- A conditional branch writes the pc either way: with its target, or with the pc that step 4 leaves. -/
theorem ite_setPc_advance (s : State) (a : Nat) (c : Prop) [Decidable c] :
    (if c then s.setPc a else s.advance) = s.setPc (if c then a else s.pc + 1) :=
  (apply_ite s.setPc c a (s.pc + 1)).symm

/-- BRANCHNEG whose operand passes the address check. -/
theorem exec_branchNeg_of_lt {s : State} {a : Nat} (h : a < s.capacity) :
    exec (.branchNeg a) s = .next (s.setPc (if s.acc < 0 then a else s.pc + 1)) := by
  rw [exec_of_lt (i := .branchNeg a) h, effect, ite_setPc_advance]

/-- BRANCHZERO whose operand passes the address check. -/
theorem exec_branchZero_of_lt {s : State} {a : Nat} (h : a < s.capacity) :
    exec (.branchZero a) s = .next (s.setPc (if s.acc = 0 then a else s.pc + 1)) := by
  rw [exec_of_lt (i := .branchZero a) h, effect, ite_setPc_advance]

/-- Settles O25: BRANCH's fields are 40 and its operand, and behind the address check its effect is to set the pc. -/
theorem branchSetsThePc : Obligations.BranchSetsThePc :=
  ⟨spelledBy_of_fields Instr.opcode_branch Instr.operand_branch, checksOperand_of_operand Instr.operand_branch,
    fun _ a ha => exec_of_lt (i := .branch a) ha⟩

/-- Settles O26: the address check precedes the test of the sign, which then decides only between two values of the pc. -/
theorem branchNegTestsForNegative : Obligations.BranchNegTestsForNegative :=
  ⟨spelledBy_of_fields Instr.opcode_branchNeg Instr.operand_branchNeg,
    checksOperand_of_operand Instr.operand_branchNeg, fun _ _ ha => exec_branchNeg_of_lt ha⟩

/-- Settles O27: as for BRANCHNEG, with the test for 0. -/
theorem branchZeroTestsForZero : Obligations.BranchZeroTestsForZero :=
  ⟨spelledBy_of_fields Instr.opcode_branchZero Instr.operand_branchZero,
    checksOperand_of_operand Instr.operand_branchZero, fun _ _ ha => exec_branchZero_of_lt ha⟩

/-- Settles O28: HALT's fields are 43 and its operand, and the operand has no part in the effect behind the address check. -/
theorem haltEndsTheRun : Obligations.HaltEndsTheRun :=
  ⟨spelledBy_of_fields Instr.opcode_halt Instr.operand_halt, checksOperand_of_operand Instr.operand_halt,
    fun _ a ha => exec_of_lt (i := .halt a) ha⟩

end Sys2Proof.Machine
end

section
/-! PROOFS of 60_exceptions.md: a fetched word whose opcode is none of the twelve (R205). -/

namespace Sys2Proof

open Sys2Proof.Claims

/-- Every instruction carries one of the twelve opcodes. -/
theorem Instr.opcode_mem_opcodes (i : Instr) : i.opcode ∈ opcodes := by
  cases i <;> simp [opcodes]

/-- A word whose opcode is none of the twelve spells no instruction, since an instruction would carry its opcode. -/
theorem decodeInstr_of_not_mem_opcodes {fmt : Format} {w : Int} (h : (decode fmt w).1 ∉ opcodes) :
    decodeInstr fmt w = .undefinedOpcode (decode fmt w).1 (decode fmt w).2 := by
  cases hd : decodeInstr fmt w with
  | instr i =>
    obtain ⟨hop, -⟩ := (decodeInstr_eq_instr_iff _ _ _).mp hd
    exact absurd (hop ▸ Instr.opcode_mem_opcodes i) h
  | undefinedOpcode op a =>
    obtain ⟨rfl, rfl⟩ := decodeInstr_eq_undefined hd
    rfl

/-- The word 0 has opcode 0 and operand 0 in both formats. -/
theorem decode_zero (fmt : Format) : decode fmt 0 = (0, 0) := by
  simp [decode]

end Sys2Proof

namespace Sys2Proof.Machine

open Sys2Proof.Claims

/-- Behind the address check and the advance, a word with an undefined opcode raises InvalidOpcode. -/
theorem runWord_of_not_mem_opcodes {s : State} {w : Int} (ha : (decode s.fmt w).2 < s.capacity)
    (hop : (decode s.fmt w).1 ∉ opcodes) :
    runWord w s = .next (s.advance.raise (s.faultRecord s.pc .invalidOpcode .absent)) := by
  simp only [runWord, decodeInstr_of_not_mem_opcodes hop]
  rw [execUndefined_eq, State.checked_of_lt _ ha]

/-- An enabled step that fetches an undefined opcode with an operand in memory advances the pc and raises
InvalidOpcode; the implicit halt cannot follow. -/
theorem step_of_not_mem_opcodes {s : State} (hs : Enabled s)
    (ha : (decode s.fmt (s.mem.read s.pc)).2 < s.capacity) (hop : (decode s.fmt (s.mem.read s.pc)).1 ∉ opcodes) :
    step s = .next (s.advance.raise (s.faultRecord s.pc .invalidOpcode .absent)) := by
  obtain ⟨hrun, hwait, hpc⟩ := hs
  have hfetch : s.fetch = s.mem.read s.pc := rfl
  rw [step_of_enabled hrun hwait hpc, hfetch, runWord_of_not_mem_opcodes ha hop, endOutcome_raise]

/-- Settles O10: the record raised is that of the instruction at the pc, so its opcode is the one fetched; the word 0 is
the case of opcode 0, whose operand 0 is in memory because the pc is. -/
theorem undefinedOpcodeFaults : Obligations.UndefinedOpcodeFaults := by
  refine ⟨fun s hs ha hop => ?_, fun s hs hzero => ?_⟩
  · exact ⟨s.faultRecord s.pc .invalidOpcode .absent, rfl, rfl, step_of_not_mem_opcodes hs ha hop⟩
  · have ⟨_, _, hpc⟩ := hs
    have hd : decode s.fmt (s.mem.read s.pc) = (0, 0) := hzero ▸ decode_zero s.fmt
    have ha : (decode s.fmt (s.mem.read s.pc)).2 < s.capacity := hd ▸ Nat.zero_lt_of_lt hpc
    have hop : (decode s.fmt (s.mem.read s.pc)).1 ∉ opcodes := hd ▸ (by decide : 0 ∉ opcodes)
    exact ⟨s.faultRecord s.pc .invalidOpcode .absent, rfl, congrArg Prod.fst hd, step_of_not_mem_opcodes hs ha hop⟩

end Sys2Proof.Machine
end

section
/-! PROOFS of 30_encoding.md: encoding and decoding undo each other (R82), the opcode table's rows (R77, R83), and the
opcodes it leaves undefined (R78). -/

namespace Sys2Proof

open Sys2Proof.Claims

/-! ### Fields and encoded words -/

/-- The fields of an encoded word are those it was made of, where the operand fits its field. -/
theorem decode_encodeFields {fmt : Format} {a : Nat} (op : Nat) (ha : a < fmt.opDiv) :
    decode fmt (encodeFields fmt op a) = (op, a) := by
  rw [decode, natAbs_encodeFields, Nat.mul_add_mod', Nat.mod_eq_of_lt ha, Nat.add_comm,
    Nat.add_mul_div_right _ _ fmt.opDiv_pos, Nat.div_eq_of_lt ha, Nat.zero_add]

/-- Every word is the encoding of its fields, or the negative of it: the two have one magnitude. -/
theorem eq_encodeFields_or_neg (fmt : Format) (w : Int) :
    w = encodeFields fmt (decode fmt w).1 (decode fmt w).2 ∨
      w = -encodeFields fmt (decode fmt w).1 (decode fmt w).2 := by
  rw [← Int.natAbs_eq_natAbs_iff, natAbs_encodeFields, decode, Nat.div_add_mod']

/-- The operand of a decoded word fits its field. -/
theorem decode_operand_lt (fmt : Format) (w : Int) : (decode fmt w).2 < fmt.opDiv :=
  Nat.mod_lt _ fmt.opDiv_pos

/-- The domain of a format is the words with an opcode of two decimal digits. -/
theorem inDomain_iff_opcode_le (fmt : Format) (w : Int) : inDomain fmt w ↔ (decode fmt w).1 ≤ 99 := by
  have hmag : fmt.maxMag + 1 = 100 * fmt.opDiv := by cases fmt <;> rfl
  rw [inDomain_iff_natAbs, decode, ← Nat.lt_succ_iff, ← Nat.lt_succ_iff, Nat.div_lt_iff_lt_mul fmt.opDiv_pos,
    Nat.succ_eq_add_one, hmag]

/-- The fields of the word of a well-formed instruction. -/
theorem decode_encode {fmt : Format} {i : Instr} (h : i.wf fmt = true) :
    decode fmt (encode fmt i) = (i.opcode, i.operand) :=
  decode_encodeFields i.opcode (of_decide_eq_true h)

/-- Settles O4: the two ranges of the fields are those of the operand field and of the domain. -/
theorem inDomainWordIsPlusOrMinusItsEncoding : Obligations.InDomainWordIsPlusOrMinusItsEncoding := by
  refine fun fmt => ⟨fun op a hop ha => ?_, fun w hw => ?_⟩
  · have hfields := decode_encodeFields op ha
    exact ⟨hfields, (inDomain_iff_opcode_le _ _).mpr (hfields ▸ hop)⟩
  · exact ⟨(inDomain_iff_opcode_le _ _).mp hw, decode_operand_lt fmt w, eq_encodeFields_or_neg fmt w⟩

/-- Settles O3: both signs of the encoding have the instruction's fields, and a word is fixed by its fields up to sign. -/
theorem decodeOfEncodeIsTheInstruction : Obligations.DecodeOfEncodeIsTheInstruction := by
  intro fmt i hwf
  have hfields := decode_encode hwf
  refine ⟨?_, ?_, fun w hw => ?_⟩
  · simp [decodeInstr_eq_instr_iff, hfields]
  · simp [decodeInstr_eq_instr_iff, hfields]
  · obtain ⟨hop, ha⟩ := (decodeInstr_eq_instr_iff _ _ _).mp hw
    rw [encode, hop, ha]
    exact eq_encodeFields_or_neg fmt w

/-! ### The opcode table -/

/-- Settles O5: what the mask leaves of the magnitude is the opcode times the divisor. -/
theorem tableRowMatchesExactlyItsWords : Obligations.TableRowMatchesExactlyItsWords := by
  intro fmt w i
  have hmask : w.natAbs - w.natAbs % fmt.opDiv = (decode fmt w).1 * fmt.opDiv :=
    Nat.sub_eq_of_eq_add (Nat.div_add_mod' _ _).symm
  rw [decodeInstr_eq_instr_iff, hmask, Nat.mul_left_inj fmt.opDiv_pos.ne', @eq_comm _ i.opcode]
  rfl

/-- Each of the twelve opcodes spells an instruction, with any operand. -/
theorem exists_instr_of_mem_opcodes {op : Nat} (h : op ∈ opcodes) (a : Nat) :
    ∃ i : Instr, i.opcode = op ∧ i.operand = a := by
  simp only [opcodes, List.mem_cons, List.not_mem_nil, or_false] at h
  rcases h with rfl | rfl | rfl | rfl | rfl | rfl | rfl | rfl | rfl | rfl | rfl | rfl
  exacts [⟨.read a, rfl, rfl⟩, ⟨.write a, rfl, rfl⟩, ⟨.load a, rfl, rfl⟩, ⟨.store a, rfl, rfl⟩, ⟨.add a, rfl, rfl⟩,
    ⟨.subtract a, rfl, rfl⟩, ⟨.divide a, rfl, rfl⟩, ⟨.multiply a, rfl, rfl⟩, ⟨.branch a, rfl, rfl⟩,
    ⟨.branchNeg a, rfl, rfl⟩, ⟨.branchZero a, rfl, rfl⟩, ⟨.halt a, rfl, rfl⟩]

/-- A word that spells no instruction has an opcode that is none of the twelve. -/
theorem decodeInstr_undefined_not_mem_opcodes {fmt : Format} {w : Int} {op a : Nat}
    (h : decodeInstr fmt w = .undefinedOpcode op a) : op ∉ opcodes := by
  intro hop
  obtain ⟨rfl, rfl⟩ := decodeInstr_eq_undefined h
  obtain ⟨i, hfields⟩ := exists_instr_of_mem_opcodes hop (decode fmt w).2
  rw [(decodeInstr_eq_instr_iff _ _ _).mpr hfields] at h
  cases h

/-- Settles O6: an opcode is undefined exactly when no instruction carries it. -/
theorem undefinedOpcodesAreAllTheOthers : Obligations.UndefinedOpcodesAreAllTheOthers := by
  refine fun fmt w op a => ⟨fun h => ?_, fun ⟨hfields, hop⟩ => ?_⟩
  · obtain ⟨rfl, rfl⟩ := decodeInstr_eq_undefined h
    exact ⟨rfl, decodeInstr_undefined_not_mem_opcodes h⟩
  · have h := decodeInstr_of_not_mem_opcodes (fmt := fmt) (w := w) (hfields ▸ hop)
    rwa [hfields] at h

/-- Settles O7: the fields of each word written out, compared with those of its instruction. -/
theorem wordsWrittenFromTheTableDecode : Obligations.WordsWrittenFromTheTableDecode := by
  unfold Obligations.WordsWrittenFromTheTableDecode
  decide

end Sys2Proof
end

section
/-! PROOFS of 10_state.md: every transition keeps the invariant of the machine (R20-R34). Each operation on the state
keeps it under a condition of its own; a transition is a chain of operations whose conditions hold. -/

namespace Sys2Proof

/-- The floor quotient of a value of the domain stays in the domain (43_arithmetic.md R147). -/
theorem inDomain_fdiv {fmt : Format} {n : Int} (d : Int) (h : inDomain fmt n) : inDomain fmt (Int.fdiv n d) := by
  rw [inDomain_iff_natAbs] at h ⊢
  exact (Int.natAbs_fdiv_le_natAbs n d).trans h

end Sys2Proof

namespace Sys2Proof.Machine

/-- The invariant as it holds before step 6: the pc may stand at `CAPACITY` in a running core. -/
structure InvBeforeHalt (s : State) : Prop where
  canonical : s.mem.wf = true
  bounded : ∀ p ∈ s.mem, p.1 < s.capacity
  memInDomain : ∀ a, inDomain s.fmt (s.mem.read a)
  accInDomain : inDomain s.fmt s.acc
  pcInRange : s.pc ≤ s.capacity
  fault : FaultOk s
  wait : WaitOk s
  outInDomain : ∀ v ∈ s.out, inDomain s.fmt v

/-- What the invariant says beyond it is that the pc of a core that is due a step lies in memory. -/
theorem inv_iff (s : State) :
    Inv s ↔ InvBeforeHalt s ∧ (s.status = .running → s.wait = none → s.pc < s.capacity) := by
  constructor
  · rintro ⟨⟨hwf, hbound, hdom⟩, ⟨hacc, hpc, hfetch⟩, hfault, hwait, hout⟩
    exact ⟨⟨hwf, hbound, hdom, hacc, hpc, hfault, hwait, hout⟩, hfetch⟩
  · rintro ⟨⟨hwf, hbound, hdom, hacc, hpc, hfault, hwait, hout⟩, hfetch⟩
    exact ⟨⟨hwf, hbound, hdom⟩, ⟨hacc, hpc, hfetch⟩, hfault, hwait, hout⟩

namespace InvBeforeHalt

variable {s : State}

/-- No fault record stands in a core that has not faulted. -/
theorem fault_eq_none (h : InvBeforeHalt s) (hs : s.status ≠ .faulted) : s.fault = none := by
  rw [← Option.not_isSome_iff_eq_none]
  exact fun hr => hs (h.fault.mpr hr)

/-! ### The operations -/

theorem setAcc (h : InvBeforeHalt s) {v : Int} (hv : inDomain s.fmt v) : InvBeforeHalt (s.setAcc v) :=
  { h with accInDomain := hv }

theorem emit (h : InvBeforeHalt s) {v : Int} (hv : inDomain s.fmt v) : InvBeforeHalt (s.emit v) :=
  { h with
    outInDomain := fun x hx => by
      rcases List.mem_append.mp hx with hx | hx
      · exact h.outInDomain x hx
      · exact List.mem_singleton.mp hx ▸ hv }

theorem setPc (h : InvBeforeHalt s) (hw : s.wait = none) {a : Nat} (ha : a ≤ s.capacity) : InvBeforeHalt (s.setPc a) :=
  { h with pcInRange := ha, wait := by simp [WaitOk, hw] }

theorem advance (h : InvBeforeHalt s) (hw : s.wait = none) (hpc : s.pc < s.capacity) : InvBeforeHalt s.advance :=
  h.setPc hw hpc

theorem raise (h : InvBeforeHalt s) (hw : s.wait = none) (r : FaultRecord) : InvBeforeHalt (s.raise r) :=
  { h with fault := by simp [FaultOk], wait := by simp [WaitOk, hw] }

theorem setStatus_halted (h : InvBeforeHalt s) (hs : s.status = .running) (hw : s.wait = none) :
    InvBeforeHalt (s.setStatus .halted) :=
  { h with
    fault := by simp [FaultOk, h.fault_eq_none (s := s) (by simp [hs])]
    wait := by simp [WaitOk, hw] }

theorem writeWord (h : InvBeforeHalt s) (hw : s.wait = none) {a : Nat} {v : Int} (ha : a < s.capacity)
    (hv : inDomain s.fmt v) : InvBeforeHalt (s.writeWord a v) :=
  { h with
    canonical := Memory.write_wf a v h.canonical
    bounded := fun p hp => by
      rcases Memory.mem_write hp with rfl | hp
      · exact ha
      · exact h.bounded p hp
    memInDomain := fun b => by
      rw [State.writeWord_mem, Memory.read_write a b v h.canonical]
      split
      · exact hv
      · exact h.memInDomain b
    wait := by simp [WaitOk, hw] }

theorem setWait_none (h : InvBeforeHalt s) : InvBeforeHalt (s.setWait none) :=
  { h with wait := by simp [WaitOk] }

/-- A wait may start for the READ just before the pc. -/
theorem setWait_some (h : InvBeforeHalt s) {a : Nat} (hs : s.status = .running) (ha : a < s.capacity) (hpc : 1 ≤ s.pc)
    (hd : decodeInstr s.fmt (s.mem.read (s.pc - 1)) = .instr (.read a)) :
    InvBeforeHalt (s.setWait (some { operand := a })) :=
  { h with wait := by rintro r ⟨⟩; exact ⟨hs, ha, hpc, hd⟩ }

/-- The port's two fields have no part in the invariant. -/
theorem passTurn (h : InvBeforeHalt s) : InvBeforeHalt s.passTurn := by
  unfold State.passTurn
  split <;> exact { h with }

/-! ### The chains of operations -/

/-- Every turn of the port for a READ with its operand in memory. -/
theorem answerRead (h : InvBeforeHalt s) (p : Nat) {a : Nat} (ha : a < s.capacity) :
    InvBeforeHalt (s.answerRead p a) := by
  rcases s.answerRead_cases p a with ⟨-, he⟩ | ⟨v, -, hv, he⟩ | ⟨v, -, -, he⟩ | ⟨-, he⟩ <;> rw [he]
  · exact h.passTurn
  · exact h.passTurn.setWait_none.writeWord rfl (by simpa using ha) (by simpa using hv)
  · exact h.passTurn.setWait_none.raise rfl _
  · exact h.passTurn.setWait_none.raise rfl _

/-- The effect of the instruction at the pc, in each way it can come out. -/
theorem of_effectOf (h : InvBeforeHalt s) (hs : s.status = .running) (hw : s.wait = none) (hpc : s.pc < s.capacity)
    {i : Instr} {u : State} (hi : i.operand < s.capacity) (hd : decodeInstr s.fmt (s.mem.read s.pc) = .instr i)
    (he : EffectOf s i u) : InvBeforeHalt u := by
  have hadv := h.advance hw hpc
  have hwait : ∀ a, i = .read a → InvBeforeHalt (s.advance.setWait (some { operand := a })) := by
    rintro a rfl
    exact hadv.setWait_some hs hi (Nat.le_add_left 1 _) hd
  cases he with
  | readWaits a => exact (hwait a rfl).passTurn
  | readStores a v _ hv =>
    exact (hwait a rfl).passTurn.setWait_none.writeWord rfl (by simpa using hi) (by simpa using hv)
  | readRejects a => exact (hwait a rfl).passTurn.setWait_none.raise rfl _
  | readMalformed a => exact (hwait a rfl).passTurn.setWait_none.raise rfl _
  | write a => exact hadv.emit (h.memInDomain a)
  | load a => exact hadv.setAcc (h.memInDomain a)
  | store => exact hadv.writeWord hw hi h.accInDomain
  | add _ hv => exact hadv.setAcc hv
  | subtract _ hv => exact hadv.setAcc hv
  | multiply _ hv => exact hadv.setAcc hv
  | divide => exact hadv.setAcc (inDomain_fdiv _ h.accInDomain)
  | addOverflows => exact hadv.raise hw _
  | subtractOverflows => exact hadv.raise hw _
  | multiplyOverflows => exact hadv.raise hw _
  | divideByZero => exact hadv.raise hw _
  | branch => exact h.setPc hw hi.le
  | branchNegTaken => exact h.setPc hw hi.le
  | branchZeroTaken => exact h.setPc hw hi.le
  | branchNegNotTaken => exact hadv
  | branchZeroNotTaken => exact hadv
  | halt => exact hadv.setStatus_halted hs hw

/-- Step 6 makes it the invariant: a running core whose pc has reached `CAPACITY` is halted, unless it waits. -/
theorem endStep (h : InvBeforeHalt s) : Inv s.endStep := by
  rw [inv_iff]
  rcases s.endStep_cases with ⟨hs, -, hw, he⟩ | ⟨hne, he⟩ <;> rw [he]
  · exact ⟨h.setStatus_halted hs hw, by simp⟩
  · exact ⟨h, fun hs hw => lt_of_le_of_ne h.pcInRange fun hpc => hne ⟨hs, hpc, hw⟩⟩

end InvBeforeHalt

/-- Settles O44: up to step 6 each operation of a transition keeps what the invariant says of its fields; step 6 then
restores what it says of the pc. -/
theorem stepKeepsTheInvariant : Obligations.StepKeepsTheInvariant := by
  intro s t hinv hstep
  have h := ((inv_iff s).mp hinv).1
  obtain ⟨hs, ⟨r, hr, rfl⟩ | ⟨hw, hpc, u, hu, rfl⟩⟩ := step_cases hstep
  · obtain ⟨-, ha, -, -⟩ := h.wait r hr
    exact (h.answerRead _ ha).endStep
  · cases hu with
    | invalidAddress => exact (h.raise hw _).endStep
    | invalidOpcode => exact ((h.advance hw hpc).raise hw _).endStep
    | instr i _ hi hd he => exact (h.of_effectOf hs hw hpc hi hd he).endStep

end Sys2Proof.Machine
end

section
/-! PROOFS of 41_io.md, 42_data_movement.md, 43_arithmetic.md, 44_control.md: what each family of instructions leaves
unchanged, from one lemma for each part of the state; and how an instruction can fault (60_exceptions.md R200). -/

namespace Sys2Proof.Machine

open Sys2Proof.Claims

/-! ### One lemma for each part of the state -/

namespace EffectOf

variable {s u : State} {i : Instr}

theorem capacity (h : EffectOf s i u) : u.capacity = s.capacity := by
  cases h <;> simp

theorem fmt (h : EffectOf s i u) : u.fmt = s.fmt := by
  cases h <;> simp

/-- Only READ touches the wait and the port. -/
theorem port_of_ne_read (h : EffectOf s i u) (hi : ∀ a, i ≠ .read a) :
    u.wait = s.wait ∧ u.inputs = s.inputs ∧ u.draws = s.draws := by
  cases h
  case readWaits a _ => exact absurd rfl (hi a)
  case readStores a _ _ _ => exact absurd rfl (hi a)
  case readRejects a _ _ _ => exact absurd rfl (hi a)
  case readMalformed a _ => exact absurd rfl (hi a)
  all_goals exact ⟨rfl, rfl, rfl⟩

/-- Only a READ starts a wait, and for its own operand. -/
theorem wait_cases (h : EffectOf s i u) :
    u.wait = s.wait ∨ u.wait = none ∨ ∃ a, i = .read a ∧ u.wait = some { operand := a } := by
  cases h
  case readWaits a _ => exact .inr (.inr ⟨a, rfl, by simp⟩)
  case readStores => exact .inr (.inl rfl)
  case readRejects => exact .inr (.inl rfl)
  case readMalformed => exact .inr (.inl rfl)
  all_goals exact .inl rfl

/-- Memory is written at most once, at the operand, by a STORE or a READ. -/
theorem mem_cases (h : EffectOf s i u) :
    u.mem = s.mem ∨ ∃ a v, (i = .store a ∨ i = .read a) ∧ u.mem = s.mem.write a v := by
  cases h
  case readStores a v _ _ => exact .inr ⟨a, v, .inr rfl, by simp⟩
  case store a => exact .inr ⟨a, s.acc, .inl rfl, rfl⟩
  all_goals exact .inl (by simp)

/-- The accumulator is written by five instructions only. -/
theorem acc_of_not_writesAcc (h : EffectOf s i u) (hi : ¬WritesAcc i) : u.acc = s.acc := by
  cases h
  case load a => exact absurd ⟨a, by simp⟩ hi
  case add a _ => exact absurd ⟨a, by simp⟩ hi
  case subtract a _ => exact absurd ⟨a, by simp⟩ hi
  case divide a _ => exact absurd ⟨a, by simp⟩ hi
  case multiply a _ => exact absurd ⟨a, by simp⟩ hi
  all_goals simp

/-- The pc goes to the operand for a branch taken, else one further. -/
theorem pc (h : EffectOf s i u) : u.pc =
    if i.opcode = 40 then i.operand
    else if i.opcode = 41 ∧ s.acc < 0 then i.operand
    else if i.opcode = 42 ∧ s.acc = 0 then i.operand
    else s.pc + 1 := by
  cases h <;> simp [*]

end EffectOf

/-! ### Faults -/

/-- `t` is `s` after a fault of the instruction at `p`: the record, the status and the pc of 60_exceptions.md R207, and
nothing committed. -/
structure FaultedAt (s : State) (p : Nat) (cause : FaultCause) (value : FaultValue) (t : State) : Prop where
  status : t.status = .faulted
  fault : t.fault = some (s.faultRecord p cause value)
  acc : t.acc = s.acc
  mem : t.mem = s.mem
  out : t.out = s.out
  pc : t.pc = if cause = .invalidAddress then p else p + 1

/-- What can make the word with opcode `op` and operand `a` fault in the state `s`, and the value its record then holds
(60_exceptions.md R200). -/
inductive CauseOf (s : State) (op a : Nat) : FaultCause → FaultValue → Prop where
  | invalidAddress (ha : s.capacity ≤ a) : CauseOf s op a .invalidAddress .absent
  | malformedInput (hop : op = 10) (ha : a < s.capacity) : CauseOf s op a .invalidInput .malformed
  | inputOutOfDomain (v : Int) (hop : op = 10) (ha : a < s.capacity) (hv : ¬inDomain s.fmt v) :
      CauseOf s op a .invalidInput (.number v)
  | overflow (v : Int) (ha : a < s.capacity) (hv : ¬inDomain s.fmt v)
      (hop : op = 30 ∧ v = s.acc + s.mem.read a ∨ op = 31 ∧ v = s.acc - s.mem.read a ∨
        op = 33 ∧ v = s.acc * s.mem.read a) : CauseOf s op a .overflow (.number v)
  | divisionByZero (hop : op = 32) (ha : a < s.capacity) (hd : s.mem.read a = 0) :
      CauseOf s op a .divisionByZero .absent
  | invalidOpcode (hop : op ∉ opcodes) (ha : a < s.capacity) : CauseOf s op a .invalidOpcode .absent

/-- Raising InvalidAddress before the advance. -/
theorem faultedAt_raise_invalidAddress (s : State) (value : FaultValue) :
    FaultedAt s s.pc .invalidAddress value (s.raise (s.faultRecord s.pc .invalidAddress value)) :=
  ⟨rfl, rfl, rfl, rfl, rfl, rfl⟩

/-- Raising another fault after the advance. -/
theorem faultedAt_advance_raise (s : State) {cause : FaultCause} (value : FaultValue) (h : cause ≠ .invalidAddress) :
    FaultedAt s s.pc cause value (s.advance.raise (s.faultRecord s.pc cause value)) :=
  ⟨rfl, rfl, rfl, rfl, rfl, (if_neg h).symm⟩

/-- Step 6 leaves a fault as it is. -/
theorem FaultedAt.endStep {s t : State} {p : Nat} {cause : FaultCause} {value : FaultValue}
    (h : FaultedAt s p cause value t) : FaultedAt s p cause value t.endStep := by
  rwa [State.endStep_of_ne_running (by simp [h.status])]

/-- A turn of the port leaves status and fault record alone, or faults the READ it was for. -/
theorem State.answerRead_fault_cases (s : State) {p : Nat} (a : Nat) (hp : s.pc = p + 1) (ha : a < s.capacity) :
    ((s.answerRead p a).fault = s.fault ∧ (s.answerRead p a).status = s.status) ∨
    ∃ cause value, CauseOf s 10 a cause value ∧ FaultedAt s p cause value (s.answerRead p a) := by
  rcases s.answerRead_cases p a with ⟨-, he⟩ | ⟨v, -, -, he⟩ | ⟨v, -, hv, he⟩ | ⟨-, he⟩ <;> rw [he]
  · exact .inl (by simp)
  · exact .inl (by simp)
  · exact .inr ⟨_, _, .inputOutOfDomain v rfl ha hv, by constructor <;> simp [hp]⟩
  · exact .inr ⟨_, _, .malformedInput rfl ha, by constructor <;> simp [hp]⟩

/-- An instruction leaves status and fault record alone, halts the core as HALT, or faults for a cause of its own. -/
theorem EffectOf.fault_cases {s u : State} {i : Instr} (h : EffectOf s i u) (ha : i.operand < s.capacity) :
    (u.fault = s.fault ∧ (u.status = s.status ∨ (∃ a, i = .halt a) ∧ u.status = .halted)) ∨
    ∃ cause value, CauseOf s i.opcode i.operand cause value ∧ FaultedAt s s.pc cause value u := by
  cases h
  case readRejects a v _ hv =>
    exact .inr ⟨_, _, .inputOutOfDomain v rfl ha hv, by constructor <;> simp⟩
  case readMalformed a _ => exact .inr ⟨_, _, .malformedInput rfl ha, by constructor <;> simp⟩
  case addOverflows a hv =>
    exact .inr ⟨_, _, .overflow _ ha hv (.inl ⟨rfl, rfl⟩), faultedAt_advance_raise s _ (by decide)⟩
  case subtractOverflows a hv =>
    exact .inr ⟨_, _, .overflow _ ha hv (.inr (.inl ⟨rfl, rfl⟩)), faultedAt_advance_raise s _ (by decide)⟩
  case multiplyOverflows a hv =>
    exact .inr ⟨_, _, .overflow _ ha hv (.inr (.inr ⟨rfl, rfl⟩)), faultedAt_advance_raise s _ (by decide)⟩
  case divideByZero a hd => exact .inr ⟨_, _, .divisionByZero rfl ha hd, faultedAt_advance_raise s _ (by decide)⟩
  case halt a => exact .inl ⟨rfl, .inr ⟨⟨a, rfl⟩, rfl⟩⟩
  all_goals exact .inl (by simp)

/-! ### The same for `exec`, operand check included -/

section

variable {s t : State} {i : Instr}

theorem exec_capacity_fmt (h : exec i s = .next t) : t.capacity = s.capacity ∧ t.fmt = s.fmt := by
  rcases exec_cases h with ⟨-, he⟩ | ⟨-, rfl⟩
  · exact ⟨he.capacity, he.fmt⟩
  · exact ⟨rfl, rfl⟩

theorem exec_sameRest (h : exec i s = .next t) (hi : ∀ a, i ≠ .read a) : SameRest s t := by
  obtain ⟨hcap, hfmt⟩ := exec_capacity_fmt h
  rcases exec_cases h with ⟨-, he⟩ | ⟨-, rfl⟩
  · exact ⟨hcap, hfmt, he.port_of_ne_read hi⟩
  · exact ⟨rfl, rfl, rfl, rfl, rfl⟩

theorem exec_mem_cases (h : exec i s = .next t) :
    t.mem = s.mem ∨ ∃ a v, (i = .store a ∨ i = .read a) ∧ t.mem = s.mem.write a v := by
  rcases exec_cases h with ⟨-, he⟩ | ⟨-, rfl⟩
  · exact he.mem_cases
  · exact .inl rfl

theorem exec_sameMemory (h : exec i s = .next t) (hstore : ∀ a, i ≠ .store a) (hread : ∀ a, i ≠ .read a) :
    SameMemory s t := by
  rcases exec_mem_cases h with hm | ⟨a, v, hi | hi, -⟩
  · exact fun b => by rw [hm]
  · exact absurd hi (hstore a)
  · exact absurd hi (hread a)

theorem exec_out (h : exec i s = .next t) (hi : ∀ a, i ≠ .write a) : t.out = s.out := by
  rcases exec_cases h with ⟨-, he⟩ | ⟨-, rfl⟩
  · exact he.out_of_ne_write hi
  · rfl

theorem exec_acc (h : exec i s = .next t) (hi : ¬WritesAcc i) : t.acc = s.acc := by
  rcases exec_cases h with ⟨-, he⟩ | ⟨-, rfl⟩
  · exact he.acc_of_not_writesAcc hi
  · rfl

theorem exec_fault_cases (h : exec i s = .next t) :
    (t.fault = s.fault ∧ (t.status = s.status ∨ (∃ a, i = .halt a) ∧ t.status = .halted)) ∨
    ∃ cause value, CauseOf s i.opcode i.operand cause value ∧ FaultedAt s s.pc cause value t := by
  rcases exec_cases h with ⟨hlt, he⟩ | ⟨hle, rfl⟩
  · exact he.fault_cases hlt
  · exact .inr ⟨_, _, .invalidAddress hle, faultedAt_raise_invalidAddress s _⟩

/-- All but HALT keep status and fault record, or have faulted and committed nothing. -/
theorem exec_kept_or_faultedAt (h : exec i s = .next t) (hi : ∀ a, i ≠ .halt a) :
    (t.status = s.status ∧ t.fault = s.fault) ∨ ∃ cause value, FaultedAt s s.pc cause value t := by
  rcases exec_fault_cases h with ⟨hf, hs | ⟨⟨a, ha⟩, -⟩⟩ | ⟨cause, value, -, hfault⟩
  · exact .inl ⟨hs, hf⟩
  · exact absurd ha (hi a)
  · exact .inr ⟨cause, value, hfault⟩

theorem exec_statusKeptOrFaulted (h : exec i s = .next t) (hi : ∀ a, i ≠ .halt a) : StatusKeptOrFaulted s t :=
  (exec_kept_or_faultedAt h hi).imp id fun ⟨_, _, hf⟩ => hf.status

end

/-! ### The frames -/

/-- Settles O31: an instruction that writes the accumulator is none of READ, WRITE, STORE and HALT, and where it faults
it commits nothing. -/
theorem accumulatorInstructionsFrame : Obligations.AccumulatorInstructionsFrame := by
  intro s t i hi h
  have hread : ∀ a, i ≠ .read a := by rintro a rfl; simp [WritesAcc] at hi
  have hwrite : ∀ a, i ≠ .write a := by rintro a rfl; simp [WritesAcc] at hi
  have hstore : ∀ a, i ≠ .store a := by rintro a rfl; simp [WritesAcc] at hi
  have hhalt : ∀ a, i ≠ .halt a := by rintro a rfl; simp [WritesAcc] at hi
  refine ⟨exec_sameMemory h hstore hread, exec_sameRest h hread, exec_out h hwrite,
    exec_statusKeptOrFaulted h hhalt, ?_⟩
  rcases exec_kept_or_faultedAt h hhalt with hkept | ⟨_, _, hfault⟩
  · exact .inr hkept
  · exact .inl hfault.acc

/-- Settles O32: the one write that STORE and READ make is at their operand, and where they fault they make none. -/
theorem storingInstructionsFrame : Obligations.StoringInstructionsFrame := by
  intro s t i hi h
  have hacc : ¬WritesAcc i := by obtain ⟨a, rfl | rfl⟩ := hi <;> simp [WritesAcc]
  have hwrite : ∀ a, i ≠ .write a := by obtain ⟨a, rfl | rfl⟩ := hi <;> simp
  have hhalt : ∀ a, i ≠ .halt a := by obtain ⟨a, rfl | rfl⟩ := hi <;> simp
  obtain ⟨hcap, hfmt⟩ := exec_capacity_fmt h
  refine ⟨fun b hb => ?_, ?_, exec_acc h hacc, exec_out h hwrite, hcap, hfmt, exec_statusKeptOrFaulted h hhalt, ?_⟩
  · rcases exec_mem_cases h with hm | ⟨a, v, rfl | rfl, hm⟩ <;> rw [hm]
    · exact Memory.read_write_other s.mem v hb
    · exact Memory.read_write_other s.mem v hb
  · rcases exec_kept_or_faultedAt h hhalt with hkept | ⟨_, _, hfault⟩
    · exact .inr hkept
    · exact .inl fun b => by rw [hfault.mem]
  · rintro a rfl
    exact exec_sameRest h (by simp)

/-- Settles O33: WRITE is none of READ and STORE, and where it faults it emits nothing. -/
theorem writeFrame : Obligations.WriteFrame := by
  intro s t a h
  refine ⟨exec_sameMemory h (by simp) (by simp), exec_sameRest h (by simp), exec_acc h (by simp [WritesAcc]),
    exec_statusKeptOrFaulted h (by simp), ?_⟩
  rcases exec_kept_or_faultedAt h (by simp) with hkept | ⟨_, _, hfault⟩
  · exact .inr hkept
  · exact .inl hfault.out

/-- Settles O34: the control instructions are none of those that write anything but pc and status. -/
theorem controlInstructionsFrame : Obligations.ControlInstructionsFrame := by
  intro s t i hi h
  have hacc : ¬WritesAcc i := by obtain ⟨a, rfl | rfl | rfl | rfl⟩ := hi <;> simp [WritesAcc]
  have hread : ∀ a, i ≠ .read a := by obtain ⟨a, rfl | rfl | rfl | rfl⟩ := hi <;> simp
  have hstore : ∀ a, i ≠ .store a := by obtain ⟨a, rfl | rfl | rfl | rfl⟩ := hi <;> simp
  have hwrite : ∀ a, i ≠ .write a := by obtain ⟨a, rfl | rfl | rfl | rfl⟩ := hi <;> simp
  exact ⟨exec_sameMemory h hstore hread, exec_sameRest h hread, exec_acc h hacc, exec_out h hwrite,
    (exec_fault_cases h).imp id fun ⟨_, _, _, hfault⟩ => hfault.status⟩

end Sys2Proof.Machine
end

section
/-! PROOFS of 43_arithmetic.md: what ADD, SUBTRACT, MULTIPLY and DIVIDE compute, and when they fault (R140-R147). -/

namespace Sys2Proof

/-- The remainder of floor division, divided by the divisor, lies in `[0, 1)`. -/
theorem fmod_div_mem {n d : Int} (hd : d ≠ 0) :
    0 ≤ ((Int.fmod n d : Int) : Rat) / d ∧ ((Int.fmod n d : Int) : Rat) / d < 1 := by
  rcases lt_or_gt_of_ne hd with hneg | hpos
  · obtain ⟨-, hlt, hle⟩ := (Int.fdiv_fmod_unique' hneg (a := n)).mp ⟨rfl, rfl⟩
    exact ⟨div_nonneg_of_nonpos (by exact_mod_cast hle) (by exact_mod_cast hneg.le),
      (div_lt_one_of_neg (by exact_mod_cast hneg)).mpr (by exact_mod_cast hlt)⟩
  · obtain ⟨-, hle, hlt⟩ := (Int.fdiv_fmod_unique hpos (a := n)).mp ⟨rfl, rfl⟩
    exact ⟨div_nonneg (by exact_mod_cast hle) (by exact_mod_cast hpos.le),
      (div_lt_one (by exact_mod_cast hpos)).mpr (by exact_mod_cast hlt)⟩

/-- The floor quotient is the floor of the rational quotient. -/
theorem floor_div_eq_fdiv (n : Int) {d : Int} (hd : d ≠ 0) : ⌊(n : Rat) / (d : Rat)⌋ = Int.fdiv n d := by
  obtain ⟨hlo, hhi⟩ := fmod_div_mem (n := n) hd
  have hd' : (d : Rat) ≠ 0 := by exact_mod_cast hd
  have hsplit : (n : Rat) / d = Int.fdiv n d + (Int.fmod n d : Int) / (d : Rat) := by
    conv_lhs => rw [← Int.mul_fdiv_add_fmod n d]
    push_cast
    rw [add_div, mul_div_cancel_left₀ _ hd']
  rw [Int.floor_eq_iff, hsplit]
  exact ⟨by linarith, by linarith⟩

/-- The remainder of floor division has the sign of the divisor, or is 0. -/
theorem fmod_mul_nonneg (n : Int) {d : Int} (hd : d ≠ 0) : 0 ≤ Int.fmod n d * d := by
  have h := mul_nonneg (fmod_div_mem (n := n) hd).1 (mul_self_nonneg (d : Rat))
  have hd' : (d : Rat) ≠ 0 := by exact_mod_cast hd
  rw [← mul_assoc, div_mul_cancel₀ _ hd'] at h
  exact_mod_cast h

end Sys2Proof

namespace Sys2Proof.Machine

open Sys2Proof.Claims

/-! ### ADD, SUBTRACT, MULTIPLY -/

/-- ADD whose operand passes the address check commits the sum. -/
theorem exec_add_of_lt {s : State} {a : Nat} (h : a < s.capacity) :
    exec (.add a) s = .next (s.advance.commit s.pc (s.acc + s.mem.read a)) :=
  exec_of_lt (i := .add a) h

/-- SUBTRACT whose operand passes the address check commits the difference. -/
theorem exec_subtract_of_lt {s : State} {a : Nat} (h : a < s.capacity) :
    exec (.subtract a) s = .next (s.advance.commit s.pc (s.acc - s.mem.read a)) :=
  exec_of_lt (i := .subtract a) h

/-- MULTIPLY whose operand passes the address check commits the product. -/
theorem exec_multiply_of_lt {s : State} {a : Nat} (h : a < s.capacity) :
    exec (.multiply a) s = .next (s.advance.commit s.pc (s.acc * s.mem.read a)) :=
  exec_of_lt (i := .multiply a) h

/-- The commit of the instruction at the pc, after the advance: the result goes to the accumulator, or Overflow is
raised, as the domain decides. -/
theorem commit_advance (s : State) (r : Int) :
    (inDomain s.fmt r → s.advance.commit s.pc r = { s with pc := s.pc + 1, acc := r }) ∧
    (¬inDomain s.fmt r → s.advance.commit s.pc r = faultedPast s .overflow (.number r)) :=
  ⟨fun h => State.commit_of_inDomain (s := s.advance) s.pc h,
    fun h => State.commit_of_not_inDomain (s := s.advance) s.pc h⟩

/-- Settles O21: behind the address check ADD is a commit of the sum. -/
theorem addCommitsOrOverflows : Obligations.AddCommitsOrOverflows := by
  refine ⟨spelledBy_of_fields Instr.opcode_add Instr.operand_add, checksOperand_of_operand Instr.operand_add,
    fun s a ha => ?_⟩
  obtain ⟨hin, hout⟩ := commit_advance s (s.acc + s.mem.read a)
  rw [exec_add_of_lt ha]
  exact ⟨fun h => congrArg _ (hin h), fun h => congrArg _ (hout h)⟩

/-- Settles O22: behind the address check SUBTRACT is a commit of the difference. -/
theorem subtractCommitsOrOverflows : Obligations.SubtractCommitsOrOverflows := by
  refine ⟨spelledBy_of_fields Instr.opcode_subtract Instr.operand_subtract,
    checksOperand_of_operand Instr.operand_subtract, fun s a ha => ?_⟩
  obtain ⟨hin, hout⟩ := commit_advance s (s.acc - s.mem.read a)
  rw [exec_subtract_of_lt ha]
  exact ⟨fun h => congrArg _ (hin h), fun h => congrArg _ (hout h)⟩

/-- Settles O24: behind the address check MULTIPLY is a commit of the product. -/
theorem multiplyCommitsOrOverflows : Obligations.MultiplyCommitsOrOverflows := by
  refine ⟨spelledBy_of_fields Instr.opcode_multiply Instr.operand_multiply,
    checksOperand_of_operand Instr.operand_multiply, fun s a ha => ?_⟩
  obtain ⟨hin, hout⟩ := commit_advance s (s.acc * s.mem.read a)
  rw [exec_multiply_of_lt ha]
  exact ⟨fun h => congrArg _ (hin h), fun h => congrArg _ (hout h)⟩

/-! ### DIVIDE -/

/-- DIVIDE by a word other than 0. -/
theorem exec_divide_of_ne_zero {s : State} {a : Nat} (ha : a < s.capacity) (hd : s.mem.read a ≠ 0) :
    exec (.divide a) s = .next { s with pc := s.pc + 1, acc := Int.fdiv s.acc (s.mem.read a) } := by
  rw [exec_of_lt (i := .divide a) ha, effect, if_neg hd]
  rfl

/-- DIVIDE by a word 0. -/
theorem exec_divide_of_zero {s : State} {a : Nat} (ha : a < s.capacity) (hd : s.mem.read a = 0) :
    exec (.divide a) s = .next (faultedPast s .divisionByZero .absent) := by
  rw [exec_of_lt (i := .divide a) ha, effect, if_pos hd]
  rfl

/-- Settles O23: the word at the operand decides between the floor quotient, which is no larger than the accumulator, and
the fault. -/
theorem divideFloorsOrFaults : Obligations.DivideFloorsOrFaults :=
  ⟨spelledBy_of_fields Instr.opcode_divide Instr.operand_divide, checksOperand_of_operand Instr.operand_divide,
    fun _ _ ha => ⟨exec_divide_of_ne_zero ha, exec_divide_of_zero ha⟩, fun _ _ d _ hn => inDomain_fdiv d hn⟩

/-- Settles O29: the new accumulator is the floor of the rational quotient, and the floor is unique. -/
theorem divisionRoundsDown : Obligations.DivisionRoundsDown := by
  intro s t a ha hd h
  rw [exec_divide_of_ne_zero ha hd] at h
  cases h
  refine ⟨fun q => ?_, ?_⟩
  · rw [← Int.floor_eq_iff, floor_div_eq_fdiv _ hd, eq_comm]
  · rw [← Int.fmod_def]
    exact fmod_mul_nonneg _ hd

/-! ### When Overflow is raised -/

/-- A commit from a state without a record raises Overflow exactly where the result is out of the domain, and leaves the
accumulator in it. -/
theorem commit_overflow_iff {s : State} (hacc : inDomain s.fmt s.acc) (hfault : s.fault = none) (p : Nat) (r : Int) :
    ((∃ x, (s.commit p r).fault = some x ∧ x.cause = .overflow) ↔ ¬inDomain s.fmt r) ∧
      inDomain (s.commit p r).fmt (s.commit p r).acc := by
  by_cases hr : inDomain s.fmt r
  · rw [State.commit_of_inDomain p hr]
    simp [hfault, hr]
  · rw [State.commit_of_not_inDomain p hr]
    simp [State.faultRecord, hr, hacc]

/-- Settles O30: three of the four are a commit, and DIVIDE either faults for another cause or keeps the domain. -/
theorem overflowExactlyOutsideTheDomain : Obligations.OverflowExactlyOutsideTheDomain := by
  intro s t i a hacc hfault ha h
  have commit := commit_overflow_iff (s := s.advance) hacc hfault s.pc
  refine ⟨?_, ?_, ?_, ?_⟩ <;> rintro rfl
  · rw [exec_add_of_lt ha] at h
    cases h
    exact commit _
  · rw [exec_subtract_of_lt ha] at h
    cases h
    exact commit _
  · rw [exec_multiply_of_lt ha] at h
    cases h
    exact commit _
  · by_cases hd : s.mem.read a = 0
    · rw [exec_divide_of_zero ha hd] at h
      cases h
      simp [faultedPast, recordAt, hacc]
    · rw [exec_divide_of_ne_zero ha hd] at h
      cases h
      exact ⟨by simp [hfault], inDomain_fdiv _ hacc⟩

end Sys2Proof.Machine
end

section
/-! PROOFS of 41_io.md: what READ does with each answer of the port, in its own step and after a wait (R120, R122). -/

namespace Sys2Proof.Machine

open Sys2Proof.Claims

/-! ### One turn of the port, by what the port does -/

section

variable {s : State}

theorem answerRead_of_silent (h : s.portEvent = .silent) (p a : Nat) : s.answerRead p a = s.passTurn := by
  simp [State.answerRead, h]

theorem answerRead_of_malformed (h : s.portEvent = .malformed) (p a : Nat) :
    s.answerRead p a = (s.passTurn.setWait none).raise (s.faultRecord p .invalidInput .malformed) := by
  simp [State.answerRead, h]

theorem answerRead_of_value_inDomain {v : Int} (h : s.portEvent = .value v) (hv : inDomain s.fmt v) (p a : Nat) :
    s.answerRead p a = (s.passTurn.setWait none).writeWord a v := by
  simp only [State.answerRead, h]
  exact State.acceptInput_of_inDomain p a (by simpa using hv)

theorem answerRead_of_value_not_inDomain {v : Int} (h : s.portEvent = .value v) (hv : ¬inDomain s.fmt v) (p a : Nat) :
    s.answerRead p a = (s.passTurn.setWait none).raise (s.faultRecord p .invalidInput (.number v)) := by
  simp only [State.answerRead, h]
  rw [State.acceptInput_of_not_inDomain p a (by simpa using hv)]
  simp [State.faultRecord]

/-- The port's fields and the registers of step 4 are apart. -/
theorem passTurn_advance_setWait (s : State) (w : Option ReadPending) :
    (s.advance.setWait w).passTurn = { s.passTurn with pc := s.pc + 1, wait := w } := by
  unfold State.passTurn
  cases h : s.inputs <;> simp [h]

/-- READ whose operand passes the address check is a turn of the port, with the wait set. -/
theorem exec_read_of_lt {a : Nat} (h : a < s.capacity) :
    exec (.read a) s = .next ((s.advance.setWait (some { operand := a })).answerRead s.pc a) :=
  exec_of_lt (i := .read a) h

end

/-- Settles O17: a silent turn leaves the wait that the request has set. -/
theorem readWithoutAnswerWaits : Obligations.ReadWithoutAnswerWaits := by
  intro s a ha hsilent
  rw [exec_read_of_lt ha, answerRead_of_silent (s := s.advance.setWait _) hsilent, passTurn_advance_setWait]

/-- Settles O16: the request is made and answered in one step, each answer ending the wait. -/
theorem readStoresTheAnswer : Obligations.ReadStoresTheAnswer := by
  refine ⟨spelledBy_of_fields Instr.opcode_read Instr.operand_read, checksOperand_of_operand Instr.operand_read,
    fun s a ha => ⟨fun hev => ?_, fun v hev hv => ?_, fun v hev hv hwf => ?_⟩⟩
  · rw [exec_read_of_lt ha, answerRead_of_malformed (s := s.advance.setWait _) hev, passTurn_advance_setWait]
    rfl
  · rw [exec_read_of_lt ha, answerRead_of_value_not_inDomain (s := s.advance.setWait _) hev hv, passTurn_advance_setWait]
    rfl
  · refine ⟨s.mem.write a v, Memory.write_wf a v hwf, Memory.read_write_same v hwf,
      fun b hb => Memory.read_write_other s.mem v hb, ?_⟩
    rw [exec_read_of_lt ha, answerRead_of_value_inDomain (s := s.advance.setWait _) hev hv, passTurn_advance_setWait]
    simp [State.setWait, State.writeWord]

/-- Settles O13: a transition of a waiting core is a turn of the port with step 6 after it, which halts the core only
where the wait has ended without a fault at `CAPACITY`. -/
theorem waitEndsOnlyByThePortsAnswer : Obligations.WaitEndsOnlyByThePortsAnswer := by
  intro s r hs hw
  rw [step_of_wait hs hw]
  refine ⟨fun hev => ?_, fun hev => ?_, fun v hev hv => ?_, fun v hev hv hwf => ?_⟩
  · rw [answerRead_of_silent hev, State.endStep, if_neg (by simp [hw])]
  · rw [answerRead_of_malformed hev, State.endStep_of_ne_running (by simp)]
    rfl
  · rw [answerRead_of_value_not_inDomain hev hv, State.endStep_of_ne_running (by simp)]
    rfl
  · refine ⟨s.mem.write r.operand v, Memory.write_wf _ v hwf, Memory.read_write_same v hwf,
      fun b hb => Memory.read_write_other s.mem v hb, ?_⟩
    rw [answerRead_of_value_inDomain hev hv]
    by_cases hpc : s.pc = s.capacity <;>
      simp [State.endStep, State.setStatus, State.setWait, State.writeWord, hs, hpc]

end Sys2Proof.Machine
end

section
/-! PROOFS of 40_execution_cycle.md: which transitions there are (R100, R107), what an enabled step runs (R110), where it
leaves the pc (10_state.md R28), and the implicit halt (R106). -/

namespace Sys2Proof.Machine

open Sys2Proof.Claims

/-- A step that fetches an instruction is that instruction and step 6. -/
theorem step_of_fetches {s : State} {i : Instr} (h : Fetches s i) : step s = endOutcome (exec i s) := by
  obtain ⟨⟨hs, hw, hpc⟩, hd⟩ := h
  have hfetch : s.fetch = s.mem.read s.pc := rfl
  rw [step_of_enabled hs hw hpc, hfetch]
  simp only [runWord, hd]

/-- Settles O8: `exec` always answers a next state, and step 6 follows it. -/
theorem stepRunsTheDecodedInstruction : Obligations.StepRunsTheDecodedInstruction := by
  intro s i h
  refine ⟨_, exec_eq i s, ?_⟩
  rw [step_of_fetches h, exec_eq]
  rfl

/-- Settles O11: the status is looked at first, then the wait, then the pc. -/
theorem noStepWhereNoneIsEnabled : Obligations.NoStepWhereNoneIsEnabled := by
  refine fun s => ⟨fun hs => ?_, fun hs => ?_, fun hs hw hpc => ?_⟩
  · simp [step, cycle, hs]
  · simp [step, cycle, hs]
  · simp [step, cycle, hs, hw, runStep, hpc]

/-- Settles O46: a running core waits, and the port has a turn, or its pc lies in memory by the invariant, and the word
there runs. -/
theorem runningMachineAlwaysSteps : Obligations.RunningMachineAlwaysSteps := by
  refine fun s hinv => ⟨fun hs => ?_, fun ⟨t, ht⟩ => (step_cases ht).1⟩
  cases hw : s.wait with
  | some r => exact ⟨_, step_of_wait hs hw⟩
  | none =>
    obtain ⟨u, hu⟩ := runWord_next s.fetch s
    exact ⟨u.endStep, by rw [step_of_enabled hs hw (hinv.registers.pcFetchable hs hw), hu, endOutcome]⟩

/-! ### The pc -/

/-- An instruction leaves the pc one further or at its operand. -/
theorem EffectOf.pc_eq_or {s u : State} {i : Instr} (h : EffectOf s i u) : u.pc = s.pc + 1 ∨ u.pc = i.operand := by
  rw [h.pc]
  split_ifs <;> simp

/-- Settles O15: an undefined opcode is no branch, and an instruction has the opcode and operand of its word. -/
theorem pcAfterAnInstruction : Obligations.PcAfterAnInstruction := by
  rintro s t ⟨hs, hw, -⟩ h
  obtain ⟨-, ⟨r, hr, -⟩ | ⟨-, -, u, hu, rfl⟩⟩ := step_cases h
  · simp [hw] at hr
  rw [State.endStep_pc]
  cases hu with
  | invalidAddress hle => simp [hle]
  | invalidOpcode hlt hd =>
    have hop := decodeInstr_undefined_not_mem_opcodes hd
    simp only [opcodes, List.mem_cons, not_or] at hop
    simp [Nat.not_le.mpr hlt, hop]
  | instr i _ hlt hd he =>
    obtain ⟨hop, ha⟩ := (decodeInstr_eq_instr_iff _ _ _).mp hd
    rw [ha] at hlt
    rw [he.pc, hop, ha, if_neg (Nat.not_le.mpr hlt)]

/-! ### The implicit halt -/

/-- Step 6 leaves no running core at `CAPACITY` but one that waits. -/
theorem endStep_ne_running {u : State} (hw : u.wait = none) (hpc : u.pc = u.capacity) : u.endStep.status ≠ .running := by
  rcases u.endStep_cases with ⟨-, -, -, he⟩ | ⟨hne, he⟩ <;> rw [he]
  · simp
  · exact fun hs => hne ⟨hs, hpc, hw⟩

/-- Settles O12: an operand that passed the check lies below `CAPACITY`, so only the advance can reach it. -/
theorem reachingCapacityHalts : Obligations.ReachingCapacityHalts := by
  refine ⟨fun s t h hw hpc => ?_, fun s u i hf he hs hw hpc => ?_⟩
  · obtain ⟨-, ⟨r, -, rfl⟩ | ⟨-, -, u, -, rfl⟩⟩ := step_cases h
    · exact endStep_ne_running (by simpa using hw) (by simpa using hpc)
    · exact endStep_ne_running (by simpa using hw) (by simpa using hpc)
  · refine ⟨?_, ?_, ?_⟩
    · rw [step_of_fetches hf, he, endOutcome, State.endStep, if_pos ⟨hs, hpc, hw⟩]
      rfl
    · rcases exec_fault_cases he with ⟨hfault, -⟩ | ⟨_, _, -, hfault⟩
      · exact hfault
      · simp [hfault.status] at hs
    · rcases exec_cases he with ⟨hlt, heff⟩ | ⟨-, rfl⟩
      · have hcap := heff.capacity
        rcases heff.pc_eq_or with hnext | htarget <;> omega
      · simp at hs

/-- Settles O14: the store leaves a running core at the word it has written, and that word is fetched next. -/
theorem storedWordRunsNext : Obligations.StoredWordRunsNext := by
  intro s hwf hf hlt
  obtain ⟨⟨hs, hw, -⟩, -⟩ := id hf
  have hstored : (s.mem.write (s.pc + 1) s.acc).read (s.pc + 1) = s.acc := Memory.read_write_same s.acc hwf
  refine ⟨s.advance.writeWord (s.pc + 1) s.acc, ?_, hs, rfl, hstored, ?_⟩
  · rw [step_of_fetches hf, exec_of_lt (i := .store _) hlt, endOutcome, effect, State.endStep, if_neg]
    exact fun hc => hlt.ne hc.2.1
  · rw [step_of_enabled (s := s.advance.writeWord _ _) hs hw hlt]
    exact congrArg (fun w => endOutcome (runWord w _)) hstored

end Sys2Proof.Machine
end

section
/-! PROOFS of 10_state.md and 20_memory.md: which transitions change the accumulator (R24), the format and the capacity
(R22), the input channel (R37), a word of memory (R56) and the wait (R34). -/

namespace Sys2Proof.Machine

open Sys2Proof.Claims

/-! ### What a turn of the port changes -/

section

variable (s : State) (p a : Nat)

@[simp] theorem State.answerRead_capacity : (s.answerRead p a).capacity = s.capacity := by
  rcases s.answerRead_cases p a with ⟨-, h⟩ | ⟨v, -, -, h⟩ | ⟨v, -, -, h⟩ | ⟨-, h⟩ <;> simp [h]

@[simp] theorem State.answerRead_fmt : (s.answerRead p a).fmt = s.fmt := by
  rcases s.answerRead_cases p a with ⟨-, h⟩ | ⟨v, -, -, h⟩ | ⟨v, -, -, h⟩ | ⟨-, h⟩ <;> simp [h]

@[simp] theorem State.answerRead_acc : (s.answerRead p a).acc = s.acc := by
  rcases s.answerRead_cases p a with ⟨-, h⟩ | ⟨v, -, -, h⟩ | ⟨v, -, -, h⟩ | ⟨-, h⟩ <;> simp [h]

/-- It ends the wait or leaves it. -/
theorem State.answerRead_wait_cases : (s.answerRead p a).wait = s.wait ∨ (s.answerRead p a).wait = none := by
  rcases s.answerRead_cases p a with ⟨-, h⟩ | ⟨v, -, -, h⟩ | ⟨v, -, -, h⟩ | ⟨-, h⟩ <;> simp [h]

/-- It leaves memory alone or writes the operand. -/
theorem State.answerRead_mem_cases : (s.answerRead p a).mem = s.mem ∨ ∃ v, (s.answerRead p a).mem = s.mem.write a v := by
  rcases s.answerRead_cases p a with ⟨-, h⟩ | ⟨v, -, -, h⟩ | ⟨v, -, -, h⟩ | ⟨-, h⟩ <;> simp [h]

end

/-! ### What an enabled step changes -/

namespace StepEffect

variable {s u : State}

theorem capacity_fmt (h : StepEffect s u) : u.capacity = s.capacity ∧ u.fmt = s.fmt := by
  cases h with
  | invalidAddress => exact ⟨rfl, rfl⟩
  | invalidOpcode => exact ⟨rfl, rfl⟩
  | instr i _ _ _ he => exact ⟨he.capacity, he.fmt⟩

/-- A change of the accumulator is by one of the five instructions. -/
theorem acc_cases (h : StepEffect s u) :
    u.acc = s.acc ∨ ∃ i, decodeInstr s.fmt (s.mem.read s.pc) = .instr i ∧ WritesAcc i := by
  cases h with
  | invalidAddress => exact .inl rfl
  | invalidOpcode => exact .inl rfl
  | instr i _ _ hd he =>
    by_cases hi : WritesAcc i
    · exact .inr ⟨i, hd, hi⟩
    · exact .inl (he.acc_of_not_writesAcc hi)

/-- A write to memory is by a STORE or a READ, at its operand. -/
theorem mem_cases (h : StepEffect s u) :
    u.mem = s.mem ∨ ∃ i a v, decodeInstr s.fmt (s.mem.read s.pc) = .instr i ∧ (i = .store a ∨ i = .read a) ∧
      u.mem = s.mem.write a v := by
  cases h with
  | invalidAddress => exact .inl rfl
  | invalidOpcode => exact .inl rfl
  | instr i _ _ hd he => exact he.mem_cases.imp id fun ⟨a, v, hi, hm⟩ => ⟨i, a, v, hd, hi, hm⟩

/-- The port and the wait are touched by a READ only, once its operand has passed the check. -/
theorem port_cases (h : StepEffect s u) :
    (u.wait = s.wait ∧ u.inputs = s.inputs ∧ u.draws = s.draws) ∨
    ∃ a, decodeInstr s.fmt (s.mem.read s.pc) = .instr (.read a) ∧ a < s.capacity ∧
      (u.wait = s.wait ∨ u.wait = none ∨ u.wait = some { operand := a }) := by
  cases h with
  | invalidAddress => exact .inl ⟨rfl, rfl, rfl⟩
  | invalidOpcode => exact .inl ⟨rfl, rfl, rfl⟩
  | instr i _ hlt hd he =>
    by_cases hi : ∃ a, i = .read a
    · obtain ⟨a, rfl⟩ := hi
      exact .inr ⟨a, hd, hlt, by simpa using he.wait_cases⟩
    · exact .inl (he.port_of_ne_read fun a ha => hi ⟨a, ha⟩)

end StepEffect

/-! ### Every transition -/

/-- Settles O36: neither a turn of the port, nor an instruction or a fault, nor step 6 changes format or capacity. -/
theorem formatAndCapacityAreFixedForTheRun : Obligations.FormatAndCapacityAreFixedForTheRun := by
  intro s t h
  obtain ⟨-, ⟨r, -, rfl⟩ | ⟨-, -, u, hu, rfl⟩⟩ := step_cases h
  · simp
  · simpa using hu.capacity_fmt.symm

/-- Settles O38: a transition of a core that does not wait has a turn of the port only for the READ it fetched. -/
theorem inputChannelMovesOnlyForRead : Obligations.InputChannelMovesOnlyForRead := by
  intro s t h hport
  obtain ⟨hs, ⟨r, hr, rfl⟩ | ⟨hw, hpc, u, hu, rfl⟩⟩ := step_cases h
  · exact .inl (by simp [hr])
  · rw [State.endStep_inputs, State.endStep_draws] at hport
    rcases hu.port_cases with ⟨-, hin, hdraw⟩ | ⟨a, hd, ha, -⟩
    · exact absurd hport (by simp [hin, hdraw])
    · exact .inr ⟨a, ⟨⟨hs, hw, hpc⟩, hd⟩, ha⟩

/-- Settles O40: a turn of the port starts no wait, and an enabled step starts one only for a READ in range. -/
theorem onlyReadWaits : Obligations.OnlyReadWaits := by
  intro s t r h hwait
  obtain ⟨hs, ⟨r', hr, rfl⟩ | ⟨hw, hpc, u, hu, rfl⟩⟩ := step_cases h <;> rw [State.endStep_wait] at hwait
  · rcases s.answerRead_wait_cases (s.pc - 1) r'.operand with he | he <;> rw [he] at hwait
    · exact .inl hwait
    · cases hwait
  · rcases hu.port_cases with ⟨he, -, -⟩ | ⟨a, hd, ha, he | he | he⟩ <;> rw [he] at hwait
    · exact .inl hwait
    · exact .inl hwait
    · cases hwait
    · cases hwait
      exact .inr ⟨hw, ⟨⟨hs, hw, hpc⟩, hd⟩, ha⟩

/-- Settles O39: the one write of a transition is at the operand of a STORE or a READ, and leaves every other word. -/
theorem memoryChangesOnlyByStoreOrRead : Obligations.MemoryChangesOnlyByStoreOrRead := by
  intro s t b h hne
  have only : ∀ {m : Memory} {a : Nat} {v : Int}, m.read b ≠ s.mem.read b → m = s.mem.write a v → b = a := by
    rintro m a v hm rfl
    by_contra hb
    exact hm (Memory.read_write_other s.mem v hb)
  obtain ⟨hs, ⟨r, hr, rfl⟩ | ⟨hw, hpc, u, hu, rfl⟩⟩ := step_cases h <;> rw [State.endStep_mem] at hne
  · rcases s.answerRead_mem_cases (s.pc - 1) r.operand with he | ⟨v, he⟩
    · exact absurd (by rw [he]) hne
    · obtain rfl := only hne he
      exact .inr (.inr hr)
  · rcases hu.mem_cases with he | ⟨i, a, v, hd, hi, he⟩
    · exact absurd (by rw [he]) hne
    · obtain rfl := only hne he
      rcases hi with rfl | rfl
      · exact .inl ⟨⟨hs, hw, hpc⟩, hd⟩
      · exact .inr (.inl ⟨⟨hs, hw, hpc⟩, hd⟩)

/-- Settles O48: a transition leaves memory alone or makes one write, and a write keeps the canonical form. -/
theorem stepKeepsMemoryCanonical : Obligations.StepKeepsMemoryCanonical := by
  intro s t hwf h
  obtain ⟨-, ⟨r, -, rfl⟩ | ⟨-, -, u, hu, rfl⟩⟩ := step_cases h <;> rw [State.endStep_mem]
  · rcases s.answerRead_mem_cases (s.pc - 1) r.operand with he | ⟨v, he⟩ <;> rw [he]
    · exact hwf
    · exact Memory.write_wf _ v hwf
  · rcases hu.mem_cases with he | ⟨i, a, v, -, -, he⟩ <;> rw [he]
    · exact hwf
    · exact Memory.write_wf a v hwf

/-! ### Instructions that do not read the accumulator -/

theorem passTurn_setAcc (s : State) (x : Int) : (s.setAcc x).passTurn = s.passTurn.setAcc x := by
  unfold State.passTurn
  cases h : s.inputs <;> simp [h] <;> rfl

/-- A turn of the port does not depend on the accumulator. -/
theorem answerRead_setAcc (s : State) (p a : Nat) (x : Int) :
    (s.setAcc x).answerRead p a = (s.answerRead p a).setAcc x := by
  have hport : (s.setAcc x).portEvent = s.portEvent := rfl
  rcases s.answerRead_cases p a with ⟨hev, he⟩ | ⟨v, hev, hv, he⟩ | ⟨v, hev, hv, he⟩ | ⟨hev, he⟩ <;>
    rw [he] <;> rw [← hport] at hev
  · rw [answerRead_of_silent hev, passTurn_setAcc]
  · rw [answerRead_of_value_inDomain hev hv, passTurn_setAcc]
    rfl
  · rw [answerRead_of_value_not_inDomain hev hv, passTurn_setAcc]
    rfl
  · rw [answerRead_of_malformed hev, passTurn_setAcc]
    rfl

/-- The effect of READ, WRITE, BRANCH and HALT does not depend on the accumulator. -/
theorem effect_setAcc {i : Instr} (hi : ∃ a, i = .read a ∨ i = .write a ∨ i = .branch a ∨ i = .halt a) (s : State)
    (x : Int) : effect (s.setAcc x) i = (effect s i).setAcc x := by
  obtain ⟨a, rfl | rfl | rfl | rfl⟩ := hi
  · exact answerRead_setAcc (s.advance.setWait (some { operand := a })) s.pc a x
  · rfl
  · rfl
  · rfl

/-- Settles O35: the five are those whose effect sets the accumulator; for the four, the effect and the fault of the
address check both commute with setting it. -/
theorem onlyFiveInstructionsWriteTheAccumulator : Obligations.OnlyFiveInstructionsWriteTheAccumulator := by
  refine ⟨fun s t h hne => ?_, fun s i x hi => ?_⟩
  · obtain ⟨hs, ⟨r, -, rfl⟩ | ⟨hw, hpc, u, hu, rfl⟩⟩ := step_cases h <;> rw [State.endStep_acc] at hne
    · simp at hne
    · obtain ⟨i, hd, hi⟩ := hu.acc_cases.resolve_left hne
      exact ⟨i, ⟨⟨hs, hw, hpc⟩, hd⟩, hi⟩
  · rcases Nat.lt_or_ge i.operand s.capacity with hlt | hle
    · exact ⟨_, exec_of_lt hlt, (exec_of_lt (s := s.setAcc x) hlt).trans (congrArg _ (effect_setAcc hi s x))⟩
    · exact ⟨_, exec_of_le hle, exec_of_le (s := s.setAcc x) hle⟩

end Sys2Proof.Machine
end

section
/-! PROOFS of 60_exceptions.md and 20_memory.md: every fault is precise (R207), each cause has its own record (R200), and
which operands raise InvalidAddress (R65); and that only HALT and the end of memory halt the core (R219). -/

namespace Sys2Proof.Machine

open Sys2Proof.Claims

/-! ### How a transition can fault -/

/-- The address of the instruction a transition belongs to: the pc, or just before it while a READ waits (log entry 5). -/
def State.instrAddr (s : State) : Nat := if s.wait = none then s.pc else s.pc - 1

/-- An enabled step leaves the fault record alone, or faults for a cause that the fetched word tells. -/
theorem StepEffect.fault_cases {s u : State} (h : StepEffect s u) :
    (u.fault = s.fault ∧ (u.status = s.status ∨ u.status = .halted)) ∨
    ∃ cause value, CauseOf s (decode s.fmt (s.mem.read s.pc)).1 (decode s.fmt (s.mem.read s.pc)).2 cause value ∧
      FaultedAt s s.pc cause value u := by
  cases h with
  | invalidAddress hle => exact .inr ⟨_, _, .invalidAddress hle, faultedAt_raise_invalidAddress s _⟩
  | invalidOpcode hlt hd =>
    exact .inr ⟨_, _, .invalidOpcode (decodeInstr_undefined_not_mem_opcodes hd) hlt,
      faultedAt_advance_raise s _ (by decide)⟩
  | instr i _ hlt hd he =>
    obtain ⟨hop, ha⟩ := (decodeInstr_eq_instr_iff _ _ _).mp hd
    rw [← hop, ← ha]
    exact (he.fault_cases hlt).imp (fun ⟨hf, hst⟩ => ⟨hf, hst.imp id And.right⟩) id

/-- Step 6 faults nothing. -/
theorem endStep_status_ne_faulted {u : State} (h : u.status ≠ .faulted) : u.endStep.status ≠ .faulted := by
  rcases u.endStep_cases with ⟨-, -, -, he⟩ | ⟨-, he⟩ <;> rw [he]
  · simp
  · exact h

/-- A transition leaves the fault record alone and does not fault, or faults for a cause that the instruction's word
tells. Where a READ waits, the invariant says that its word stands just before the pc. -/
theorem step_fault_cases {s t : State} (hwait : WaitOk s) (h : step s = .next t) :
    (t.fault = s.fault ∧ t.status ≠ .faulted) ∨
    ∃ cause value, CauseOf s (decode s.fmt (s.mem.read s.instrAddr)).1 (decode s.fmt (s.mem.read s.instrAddr)).2
      cause value ∧ FaultedAt s s.instrAddr cause value t := by
  obtain ⟨hs, ⟨r, hr, rfl⟩ | ⟨hw, -, u, hu, rfl⟩⟩ := step_cases h
  · obtain ⟨-, ha, hpc, hd⟩ := hwait r hr
    obtain ⟨hop, hoperand⟩ := (decodeInstr_eq_instr_iff _ _ _).mp hd
    have haddr : s.instrAddr = s.pc - 1 := by simp [State.instrAddr, hr]
    rw [haddr, ← hop, ← hoperand]
    rcases s.answerRead_fault_cases r.operand (Nat.sub_add_cancel hpc).symm ha with ⟨hf, hst⟩ | ⟨c, v, hc, hf⟩
    · exact .inl ⟨by rw [State.endStep_fault, hf], endStep_status_ne_faulted (by simp [hst, hs])⟩
    · exact .inr ⟨c, v, hc, hf.endStep⟩
  · have haddr : s.instrAddr = s.pc := if_pos hw
    rw [haddr]
    rcases hu.fault_cases with ⟨hf, hst⟩ | ⟨c, v, hc, hf⟩
    · refine .inl ⟨by rw [State.endStep_fault, hf], endStep_status_ne_faulted ?_⟩
      rcases hst with hst | hst <;> simp [hst, hs]
    · exact .inr ⟨c, v, hc, hf.endStep⟩

/-- Settles O41: a faulted state is one that commits nothing and stands where R207 says. -/
theorem faultsArePrecise : Obligations.FaultsArePrecise := by
  intro s t hinv h ht
  rcases step_fault_cases hinv.wait h with ⟨-, hne⟩ | ⟨c, v, -, hf⟩
  · exact absurd ht hne
  · exact ⟨hf.acc, hf.mem, hf.out, _, hf.fault, rfl, hf.pc⟩

/-- Settles O42: a running core has no record before, so the record is that of the fault raised, whose cause says what
holds of the instruction's fields. -/
theorem faultRecordTellsTheCause : Obligations.FaultRecordTellsTheCause := by
  refine ⟨⟨rfl, rfl, rfl, rfl, rfl⟩, fun s t r hinv h hr => ?_⟩
  obtain ⟨hs, -⟩ := step_cases h
  have hnone : s.fault = none := ((inv_iff s).mp hinv).1.fault_eq_none (by simp [hs])
  rcases step_fault_cases hinv.wait h with ⟨hf, -⟩ | ⟨c, v, hc, hf⟩
  · simp [hf, hnone] at hr
  · obtain rfl : s.faultRecord s.instrAddr c v = r := by simpa [hf.fault] using hr
    refine ⟨rfl, rfl, ?_⟩
    cases hc with
    | invalidAddress ha => exact ⟨ha, rfl⟩
    | malformedInput hop ha => exact ⟨hop, ha, .inl rfl⟩
    | inputOutOfDomain v hop ha hv => exact ⟨hop, ha, .inr ⟨v, rfl, hv⟩⟩
    | overflow v ha hv hop => exact ⟨ha, v, rfl, hv, hop⟩
    | divisionByZero hop ha hd => exact ⟨hop, ha, hd, rfl⟩
    | invalidOpcode hop ha => exact ⟨hop, ha, rfl⟩

/-! ### Operands and the address check -/

/-- The operands of in-domain words are those that fit the operand field. -/
theorem exists_inDomain_operand_iff (fmt : Format) (a : Nat) :
    (∃ w, inDomain fmt w ∧ (decode fmt w).2 = a) ↔ a < fmt.opDiv := by
  constructor
  · rintro ⟨w, -, rfl⟩
    exact decode_operand_lt fmt w
  · intro ha
    have hfields := decode_encodeFields 0 ha
    exact ⟨encodeFields fmt 0 a, (inDomain_iff_opcode_le _ _).mpr (by simp [hfields]), by simp [hfields]⟩

/-- An enabled step of a core without a record raises InvalidAddress exactly for an operand outside memory. -/
theorem step_invalidAddress_iff {s t : State} (hs : Enabled s) (hfault : s.fault = none) (h : step s = .next t) :
    (∃ r, t.fault = some r ∧ r.cause = .invalidAddress) ↔ s.capacity ≤ (decode s.fmt (s.mem.read s.pc)).2 := by
  have ⟨_, hw, _⟩ := hs
  constructor
  · rintro ⟨r, hr, hcause⟩
    rcases step_fault_cases (by simp [WaitOk, hw]) h with ⟨hf, -⟩ | ⟨c, v, hc, hf⟩
    · simp [hf, hfault] at hr
    · obtain rfl : s.faultRecord s.instrAddr c v = r := by simpa [hf.fault] using hr
      obtain rfl : c = .invalidAddress := hcause
      obtain ⟨ha⟩ := hc
      simpa [State.instrAddr, hw] using ha
  · intro hle
    rw [step_of_le hs hle] at h
    cases h
    exact ⟨_, rfl, rfl⟩

/-- Settles O43: an OLD operand is at most 99, so it lies below both documented capacities. -/
theorem operandReachByFormat : Obligations.OperandReachByFormat := by
  refine ⟨fun a => ?_, fun a => ?_, fun s t hs hfmt hcap hfault h => ?_, fun s t hs hfmt _ hfault h => ?_⟩
  · rw [exists_inDomain_operand_iff, Format.old_opDiv, Nat.lt_succ_iff]
  · rw [exists_inDomain_operand_iff, Format.new_opDiv, Nat.lt_succ_iff]
  · have hlt := decode_operand_lt s.fmt (s.mem.read s.pc)
    rw [hfmt, Format.old_opDiv] at hlt
    rw [step_invalidAddress_iff hs hfault h, hfmt]
    omega
  · rw [step_invalidAddress_iff hs hfault h, hfmt]

/-! ### What halts the core -/

/-- An enabled step that leaves the core HALTED before step 6 is a HALT. -/
theorem StepEffect.eq_of_halted {s u : State} (h : StepEffect s u) (hs : s.status = .running) (hu : u.status = .halted) :
    ∃ a, decodeInstr s.fmt (s.mem.read s.pc) = .instr (.halt a) ∧ a < s.capacity ∧
      u = s.advance.setStatus .halted := by
  cases h with
  | invalidAddress => simp at hu
  | invalidOpcode => simp at hu
  | instr i _ hlt hd he =>
    rcases he.fault_cases hlt with ⟨-, hst | ⟨⟨a, rfl⟩, -⟩⟩ | ⟨_, _, -, hf⟩
    · simp [hst, hs] at hu
    · obtain ⟨⟩ := he
      exact ⟨a, hd, hlt, rfl⟩
    · simp [hf.status] at hu

/-- A turn of the port leaves status and fault record alone or faults: it never halts. -/
theorem State.answerRead_status_cases (s : State) (p a : Nat) :
    ((s.answerRead p a).status = s.status ∧ (s.answerRead p a).fault = s.fault) ∨
      (s.answerRead p a).status = .faulted := by
  rcases s.answerRead_cases p a with ⟨-, h⟩ | ⟨v, -, -, h⟩ | ⟨v, -, -, h⟩ | ⟨-, h⟩ <;> simp [h]

/-- Settles O47: the status was HALTED before step 6, which only HALT does, or step 6 has set it, at `CAPACITY` and in a
core that has not faulted. -/
theorem onlyHaltOrTheEndOfMemoryHalts : Obligations.OnlyHaltOrTheEndOfMemoryHalts := by
  intro s t h ht
  obtain ⟨hs, ⟨r, hr, rfl⟩ | ⟨hw, hpc, u, hu, rfl⟩⟩ := step_cases h
  · have hcases := s.answerRead_status_cases (s.pc - 1) r.operand
    rcases (s.answerRead (s.pc - 1) r.operand).endStep_cases with ⟨hrun, hend, -, -⟩ | ⟨-, he⟩
    · rcases hcases with ⟨-, hf⟩ | hf
      · exact .inr ⟨by simpa using hend, by simpa using hf⟩
      · simp [hf] at hrun
    · rw [he] at ht
      rcases hcases with ⟨hst, -⟩ | hst
      · simp [ht, hs] at hst
      · simp [ht] at hst
  · rcases u.endStep_cases with ⟨hrun, hend, -, -⟩ | ⟨-, he⟩
    · rcases hu.fault_cases with ⟨hf, -⟩ | ⟨_, _, -, hf⟩
      · exact .inr ⟨by simpa using hend, by simpa using hf⟩
      · simp [hf.status] at hrun
    · rw [he] at ht ⊢
      obtain ⟨a, hd, ha, rfl⟩ := hu.eq_of_halted hs ht
      exact .inl ⟨a, ⟨⟨hs, hw, hpc⟩, hd⟩, ha, rfl⟩

end Sys2Proof.Machine
end

section
/-! PROOFS of 70_reset_and_hazards.md: one line of program text, trimmed, measured and parsed (R241, R244, R248). -/

namespace Sys2Proof.Machine

open Sys2Proof.Claims

/-! ### Trimming -/

theorem trimLeft_eq_dropWhile (ws : List Char) (l : Line) : trimLeft ws l = l.dropWhile (· ∈ ws) := by
  induction l with
  | nil => rfl
  | cons c cs ih => simp [trimLeft, List.dropWhile_cons, ih]

/-- Trimming drops white space from the front, then from the back. -/
theorem trimLine_eq (ws : List Char) (l : Line) :
    trimLine ws l = (l.dropWhile (· ∈ ws)).rdropWhile (· ∈ ws) := by
  simp [trimLine, trimLeft_eq_dropWhile, List.rdropWhile]

/-- What trimming leaves is a trimmed form of the line. -/
theorem trims_trimLine (ws : List Char) (l : Line) : Trims ws l (trimLine ws l) := by
  rw [trimLine_eq]
  have hback := List.rdropWhile_append_rtakeWhile (p := (· ∈ ws)) (l := l.dropWhile (· ∈ ws))
  refine ⟨l.takeWhile (· ∈ ws), (l.dropWhile (· ∈ ws)).rtakeWhile (· ∈ ws), ?_, ?_, ?_, ?_, ?_⟩
  · rw [List.append_assoc, hback, List.takeWhile_append_dropWhile]
  · exact fun c hc => by simpa using List.mem_takeWhile_imp hc
  · exact fun c hc => by simpa using List.mem_rtakeWhile_imp hc
  · intro c hc
    have hhead : (l.dropWhile (· ∈ ws)).head? = some c := by rw [← hback, List.head?_append, hc, Option.some_or]
    have hnot := List.head?_dropWhile_not (· ∈ ws) l
    rw [hhead] at hnot
    simpa using hnot
  · intro c hc
    have hne : (l.dropWhile (· ∈ ws)).rdropWhile (· ∈ ws) ≠ [] := by rintro h; simp [h] at hc
    rw [List.getLast?_eq_some_getLast hne, Option.some.injEq] at hc
    simpa [hc] using List.rdropWhile_last_not _ _ hne

/-- A trimmed form of the line is what trimming leaves: the two cuts find its ends. -/
theorem trimLine_of_trims {ws : List Char} {l t : Line} (h : Trims ws l t) : trimLine ws l = t := by
  obtain ⟨front, back, rfl, hfront, hback, hhead, hlast⟩ := h
  have hkeep : (t ++ back).dropWhile (· ∈ ws) = if t = [] then [] else t ++ back := by
    cases t with
    | nil => simpa using hback
    | cons c cs =>
      have hc : c ∉ ws := hhead c rfl
      simp [hc]
  rw [trimLine_eq, List.append_assoc, List.dropWhile_append_of_pos (by simpa using hfront), hkeep]
  by_cases ht : t = []
  · simp [ht]
  · rw [if_neg ht, List.rdropWhile, List.reverse_append, List.dropWhile_append_of_pos (by simpa using hback),
      ← List.rdropWhile, List.rdropWhile_eq_self_iff]
    intro hne
    simpa using hlast _ (List.getLast?_eq_some_getLast hne)

/-! ### Digits -/

/-- A digit and its value. -/
theorem digitValue_eq_some_iff (c : Char) (d : Nat) : digitValue c = some d ↔ d < 10 ∧ c = d.digitChar := by
  unfold digitValue
  constructor
  · intro h
    split at h <;> simp only [Option.some.injEq, reduceCtorEq] at h
    have hd : d < 10 := by omega
    refine ⟨hd, Char.toNat_inj.mp ?_⟩
    rw [Nat.toNat_digitChar_of_lt_ten hd]
    omega
  · rintro ⟨hd, rfl⟩
    rw [Nat.toNat_digitChar_of_lt_ten hd, if_pos (by omega), Nat.add_sub_cancel_left]

/-- Digits after digits worth `n`: each shifts what stands before it by one place. -/
theorem digitsValueFrom_eq_some_iff (n : Nat) (l : Line) (v : Nat) :
    digitsValueFrom n l = some v ↔ ∃ ds : List Nat, (∀ d ∈ ds, d < 10) ∧ l = ds.map Nat.digitChar ∧
      v = n * 10 ^ ds.length + Nat.ofDigits 10 ds.reverse := by
  induction l generalizing n with
  | nil => simp [digitsValueFrom, eq_comm]
  | cons c cs ih =>
    have shift : ∀ (d : Nat) (ds : List Nat), n * 10 ^ (d :: ds).length + Nat.ofDigits 10 (d :: ds).reverse =
        (10 * n + d) * 10 ^ ds.length + Nat.ofDigits 10 ds.reverse := fun d ds => by
      rw [Nat.ofDigits_reverse_cons, List.length_cons]
      ring
    constructor
    · intro h
      simp only [digitsValueFrom] at h
      split at h
      · next d hd =>
        obtain ⟨hd10, rfl⟩ := (digitValue_eq_some_iff c d).mp hd
        obtain ⟨ds, hds, rfl, rfl⟩ := (ih _).mp h
        exact ⟨d :: ds, by simpa using ⟨hd10, hds⟩, rfl, (shift d ds).symm⟩
      · cases h
    · rintro ⟨_ | ⟨d, ds⟩, hds, hl, rfl⟩
      · cases hl
      · obtain ⟨rfl, rfl⟩ := List.cons.inj hl
        obtain ⟨hd10, hds⟩ := List.forall_mem_cons.mp hds
        simp only [digitsValueFrom, (digitValue_eq_some_iff _ d).mpr ⟨hd10, rfl⟩]
        exact (ih _).mpr ⟨ds, hds, rfl, shift d ds⟩

/-- One or more digits, most significant first, have their usual value. -/
theorem digitsValue_eq_some_iff (l : Line) (v : Nat) :
    digitsValue l = some v ↔ ∃ ds : List Nat, ds ≠ [] ∧ (∀ d ∈ ds, d < 10) ∧ l = ds.map Nat.digitChar ∧
      v = Nat.ofDigits 10 ds.reverse := by
  cases l with
  | nil => simp [digitsValue]
  | cons c cs =>
    rw [digitsValue, digitsValueFrom_eq_some_iff]
    refine exists_congr fun ds => ⟨fun ⟨hds, hl, hv⟩ => ⟨?_, hds, hl, by simpa using hv⟩, fun ⟨_, hds, hl, hv⟩ =>
      ⟨hds, hl, by simpa using hv⟩⟩
    rintro rfl
    cases hl

/-! ### Signs -/

/-- No digit is a sign. -/
theorem digitChar_ne_sign {d : Nat} (hd : d < 10) : d.digitChar ≠ '-' ∧ d.digitChar ≠ '+' := by
  constructor <;> intro h <;> have hn := congrArg Char.toNat h <;> rw [Nat.toNat_digitChar_of_lt_ten hd] at hn
  · have : '-'.toNat = 45 := rfl
    omega
  · have : '+'.toNat = 43 := rfl
    omega

/-- A line that starts with no sign is parsed as digits. -/
theorem parseWord_of_head {c : Char} (cs : Line) (hminus : c ≠ '-') (hplus : c ≠ '+') :
    parseWord (c :: cs) = (digitsValue (c :: cs)).map fun n : Nat => (n : Int) := by
  unfold parseWord
  split <;> simp_all

/-- Parsing gives the signed decimal value. -/
theorem parseWord_eq_some_iff (t : Line) (v : Int) : parseWord t = some v ↔ SignedDecimal t v := by
  constructor
  · intro h
    unfold parseWord at h
    split at h <;> obtain ⟨n, hn, rfl⟩ := Option.map_eq_some_iff.mp h <;>
      obtain ⟨ds, hne, hds, rfl, rfl⟩ := (digitsValue_eq_some_iff _ _).mp hn
    · exact ⟨['-'], ds, hne, hds, rfl, .inr ⟨rfl, rfl⟩⟩
    · exact ⟨['+'], ds, hne, hds, rfl, .inl ⟨.inr rfl, rfl⟩⟩
    · exact ⟨[], ds, hne, hds, rfl, .inl ⟨.inl rfl, rfl⟩⟩
  · rintro ⟨sign, ds, hne, hds, rfl, hsign⟩
    have hn := (digitsValue_eq_some_iff _ _).mpr ⟨ds, hne, hds, rfl, rfl⟩
    rcases hsign with ⟨rfl | rfl, rfl⟩ | ⟨rfl, rfl⟩
    · obtain ⟨d, ds, rfl⟩ := List.exists_cons_of_ne_nil hne
      obtain ⟨hminus, hplus⟩ := digitChar_ne_sign (hds d (by simp))
      rw [List.nil_append, List.map_cons, parseWord_of_head _ hminus hplus, ← List.map_cons, hn, Option.map_some]
    · simp [parseWord, hn]
    · simp [parseWord, hn]

/-- The digit length leaves out one leading sign. -/
theorem digitLength_eq (t : Line) :
    digitLength t = if t.head? = some '+' ∨ t.head? = some '-' then t.length - 1 else t.length := by
  unfold digitLength stripSign
  split
  · simp
  · simp
  · next hplus hminus =>
    rw [if_neg]
    rintro (h | h) <;> obtain ⟨cs, rfl⟩ := List.head?_eq_some_iff.mp h
    · exact hplus cs rfl
    · exact hminus cs rfl

/-- Settles O59: trimming leaves a trimmed form and only one is left; digits are read place by place. -/
theorem linesAreTrimmedMeasuredAndParsed : Obligations.LinesAreTrimmedMeasuredAndParsed :=
  ⟨fun ws l _ => ⟨fun h => h ▸ trims_trimLine ws l, trimLine_of_trims⟩, digitLength_eq, parseWord_eq_some_iff⟩

end Sys2Proof.Machine
end

section
/-! PROOFS of 70_reset_and_hazards.md: loading line by line. A load reads lines up to the end of the text, to a
terminator, or to the first line that fails (R243, R253, R255). -/

namespace Sys2Proof.Machine

open Sys2Proof.Claims

/-! ### One line -/

/-- Every way the checks of R253 can end for a trimmed line `t` with number `n`, one constructor a way. -/
inductive LineEffect (cfg : LoaderConfig) (n : Nat) (st : LoadState) (t : Line) : LineVerdict → Prop where
  | blank (hb : t = []) : LineEffect cfg n st t .skip
  | terminator (hb : ¬t = []) (ht : t ∈ cfg.terminators) : LineEffect cfg n st t .stop
  | badFormat (hb : ¬t = []) (ht : t ∉ cfg.terminators) (e : LoadError) (hf : lineFormat n st.fmt t = .error e) :
      LineEffect cfg n st t (.fail e)
  | format (hb : ¬t = []) (ht : t ∉ cfg.terminators) (f : Format) (hf : lineFormat n st.fmt t = .ok f)
      (v : LineVerdict) (ha : AcceptEffect cfg n st f t v) : LineEffect cfg n st t v

section

variable {cfg : LoaderConfig} {n : Nat} {st : LoadState} {t : Line}

/-- The verdict is one of those. -/
theorem lineVerdict_cases {v : LineVerdict} (h : lineVerdict cfg n st t = v) : LineEffect cfg n st t v := by
  subst h
  by_cases hb : t = []
  · rw [lineVerdict_blank hb]
    exact .blank hb
  by_cases ht : t ∈ cfg.terminators
  · rw [lineVerdict_terminator hb ht]
    exact .terminator hb ht
  rw [lineVerdict_substantive hb ht]
  cases hf : lineFormat n st.fmt t with
  | error e => exact .badFormat hb ht e hf
  | ok f => exact .format hb ht f hf _ (acceptLine_cases cfg n st f t)

/-- Only a blank line is skipped. -/
theorem lineVerdict_skip (h : lineVerdict cfg n st t = .skip) : t = [] := by
  cases lineVerdict_cases h with
  | blank hb => exact hb
  | format _ _ _ _ _ ha => cases ha

/-- Only a terminator stops the load. -/
theorem lineVerdict_stop (h : lineVerdict cfg n st t = .stop) : ¬t = [] ∧ t ∈ cfg.terminators := by
  cases lineVerdict_cases h with
  | terminator hb ht => exact ⟨hb, ht⟩
  | format _ _ _ _ _ ha => cases ha

/-- An error names its line. -/
theorem errorLine_of_lineVerdict {e : LoadError} (h : lineVerdict cfg n st t = .fail e) : errorLine e = n := by
  cases lineVerdict_cases h with
  | badFormat _ _ _ hf => rcases lineFormat_error hf with rfl | rfl <;> rfl
  | format _ _ _ _ _ ha => cases ha <;> rfl

/-- The load after a line of format `f` with the value `v`: an in-domain value is accepted, any other warned about. -/
def LoadState.take (st : LoadState) (n : Nat) (f : Format) (v : Int) : LoadState :=
  if inDomain f v then { st with fmt := some f, words := st.words ++ [v] }
  else { st with fmt := some f, warnings := st.warnings ++ [{ line := n, value := v }] }

@[simp] theorem LoadState.take_fmt (st : LoadState) (n : Nat) (f : Format) (v : Int) : (st.take n f v).fmt = some f := by
  unfold LoadState.take
  split <;> rfl

/-- A line after which the load goes on was substantive, of a format's width, within the capacity, and a word. -/
theorem lineVerdict_continue {st' : LoadState} (h : lineVerdict cfg n st t = .continue st') :
    ¬t = [] ∧ t ∉ cfg.terminators ∧ st.words.length ≠ cfg.capacity ∧
      ∃ f v, lineFormat n st.fmt t = .ok f ∧ parseWord t = some v ∧ st' = st.take n f v := by
  cases lineVerdict_cases h with
  | format hb ht f hf _ ha =>
    cases ha with
    | accept v hlen hp hd => exact ⟨hb, ht, hlen, f, v, hf, hp, (if_pos hd).symm⟩
    | warn v hlen hp hd => exact ⟨hb, ht, hlen, f, v, hf, hp, (if_neg hd).symm⟩

end

/-! ### The lines a load reads -/

/-- What a load has before its first line. -/
def LoadState.empty : LoadState := { fmt := none, words := [], warnings := [] }

/-- The format of a load: OLD before a substantive line has fixed one (R254). -/
def LoadState.format (st : LoadState) : Format := st.fmt.getD .old

/-- Reading the lines `ls`, numbered from `n` on, takes the load from `st` to `st'`: each is blank or goes through. -/
inductive Reads (cfg : LoaderConfig) : Nat → LoadState → List Line → LoadState → Prop where
  | nil (n : Nat) (st : LoadState) : Reads cfg n st [] st
  | blank {n : Nat} {st st' : LoadState} {l : Line} {ls : List Line} (hb : Blank cfg l)
      (h : Reads cfg (n + 1) st ls st') : Reads cfg n st (l :: ls) st'
  | word {n : Nat} {st st' : LoadState} {l : Line} {ls : List Line} (f : Format) (v : Int) (hl : Substantive cfg l)
      (hf : lineFormat n st.fmt (trimLine cfg.whitespace l) = .ok f)
      (hp : parseWord (trimLine cfg.whitespace l) = some v) (hlen : st.words.length ≠ cfg.capacity)
      (h : Reads cfg (n + 1) (st.take n f v) ls st') : Reads cfg n st (l :: ls) st'

/-- The lines before the first terminator. -/
def beforeTerminator (cfg : LoaderConfig) (lines : List Line) : List Line :=
  lines.takeWhile fun l => decide (¬Terminator cfg l)

section

variable {cfg : LoaderConfig} {n : Nat} {st st' : LoadState} {l : Line} {ls : List Line}

theorem loadFrom_of_blank (hb : Blank cfg l) : loadFrom cfg n st (l :: ls) = loadFrom cfg (n + 1) st ls := by
  rw [loadFrom, lineVerdict_blank hb]

theorem loadFrom_of_terminator (hl : Terminator cfg l) : loadFrom cfg n st (l :: ls) = .ok (finishLoad cfg st) := by
  rw [loadFrom, lineVerdict_terminator hl.1 hl.2]

theorem loadFrom_of_fail {e : LoadError} (h : lineVerdict cfg n st (trimLine cfg.whitespace l) = .fail e) :
    loadFrom cfg n st (l :: ls) = .error e := by
  rw [loadFrom, h]

theorem loadFrom_of_continue (h : lineVerdict cfg n st (trimLine cfg.whitespace l) = .continue st') :
    loadFrom cfg n st (l :: ls) = loadFrom cfg (n + 1) st' ls := by
  rw [loadFrom, h]

/-- A word within the capacity is taken. -/
theorem lineVerdict_word {f : Format} {v : Int} (hl : Substantive cfg l)
    (hf : lineFormat n st.fmt (trimLine cfg.whitespace l) = .ok f)
    (hp : parseWord (trimLine cfg.whitespace l) = some v) (hlen : st.words.length ≠ cfg.capacity) :
    lineVerdict cfg n st (trimLine cfg.whitespace l) = .continue (st.take n f v) := by
  rw [lineVerdict_substantive hl.1 hl.2, hf]
  by_cases hd : inDomain f v <;> simp [acceptLine, hlen, hp, LoadState.take, hd]

/-- Lines that are read come first, and the load goes on behind them. -/
theorem Reads.loadFrom_append (h : Reads cfg n st ls st') (rest : List Line) :
    loadFrom cfg n st (ls ++ rest) = loadFrom cfg (n + ls.length) st' rest := by
  induction h with
  | nil => rfl
  | blank hb _ ih => rw [List.cons_append, loadFrom_of_blank hb, ih, List.length_cons, Nat.add_right_comm, Nat.add_assoc]
  | word f v hl hf hp hlen _ ih =>
    rw [List.cons_append, loadFrom_of_continue (lineVerdict_word hl hf hp hlen), ih, List.length_cons,
      Nat.add_right_comm, Nat.add_assoc]

/-- A load of lines that are read to the end succeeds. -/
theorem Reads.loadFrom_eq (h : Reads cfg n st ls st') : loadFrom cfg n st ls = .ok (finishLoad cfg st') := by
  simpa [loadFrom] using h.loadFrom_append []

/-- A load that succeeds has read all lines before the first terminator. -/
theorem reads_of_loadFrom_ok {r : Loaded} (h : loadFrom cfg n st ls = .ok r) :
    ∃ st', Reads cfg n st (beforeTerminator cfg ls) st' ∧ r = finishLoad cfg st' := by
  induction ls generalizing n st with
  | nil =>
    cases h
    exact ⟨st, .nil n st, rfl⟩
  | cons l ls ih =>
    match hv : lineVerdict cfg n st (trimLine cfg.whitespace l) with
    | .skip =>
      have hb : Blank cfg l := lineVerdict_skip hv
      rw [loadFrom_of_blank hb] at h
      obtain ⟨st', hr, rfl⟩ := ih h
      rw [beforeTerminator, List.takeWhile_cons_of_pos (by simp [hb])]
      exact ⟨st', .blank hb hr, rfl⟩
    | .stop =>
      have hl : Terminator cfg l := lineVerdict_stop hv
      rw [loadFrom_of_terminator hl] at h
      cases h
      rw [beforeTerminator, List.takeWhile_cons_of_neg (by simp [hl])]
      exact ⟨st, .nil n st, rfl⟩
    | .fail e =>
      rw [loadFrom_of_fail hv] at h
      cases h
    | .continue st₁ =>
      obtain ⟨hb, ht, hlen, f, v, hf, hp, rfl⟩ := lineVerdict_continue hv
      rw [loadFrom_of_continue hv] at h
      obtain ⟨st', hr, rfl⟩ := ih h
      rw [beforeTerminator, List.takeWhile_cons_of_pos (by simp [ht])]
      exact ⟨st', .word f v ⟨hb, ht⟩ hf hp hlen hr, rfl⟩

/-- A load that fails has read all lines before the one that fails. -/
theorem reads_of_loadFrom_error {e : LoadError} (h : loadFrom cfg n st ls = .error e) :
    ∃ pre l post st', ls = pre ++ l :: post ∧ Reads cfg n st pre st' ∧
      lineVerdict cfg (n + pre.length) st' (trimLine cfg.whitespace l) = .fail e := by
  induction ls generalizing n st with
  | nil => cases h
  | cons l ls ih =>
    have extend : ∀ {st₁}, loadFrom cfg (n + 1) st₁ ls = .error e →
        (∀ {pre st'}, Reads cfg (n + 1) st₁ pre st' → Reads cfg n st (l :: pre) st') →
        ∃ pre k post st', l :: ls = pre ++ k :: post ∧ Reads cfg n st pre st' ∧
          lineVerdict cfg (n + pre.length) st' (trimLine cfg.whitespace k) = .fail e := by
      intro st₁ h₁ hcons
      obtain ⟨pre, k, post, st', rfl, hr, hv⟩ := ih h₁
      exact ⟨l :: pre, k, post, st', rfl, hcons hr, by rwa [List.length_cons, ← Nat.add_assoc, Nat.add_right_comm]⟩
    match hv : lineVerdict cfg n st (trimLine cfg.whitespace l) with
    | .skip =>
      have hb : Blank cfg l := lineVerdict_skip hv
      exact extend (loadFrom_of_blank hb ▸ h) (.blank hb)
    | .stop =>
      rw [loadFrom_of_terminator (lineVerdict_stop hv)] at h
      cases h
    | .fail e' =>
      rw [loadFrom_of_fail hv] at h
      cases h
      exact ⟨[], l, ls, st, rfl, .nil n st, hv⟩
    | .continue st₁ =>
      obtain ⟨hb, ht, hlen, f, v, hf, hp, rfl⟩ := lineVerdict_continue hv
      exact extend (loadFrom_of_continue hv ▸ h) (.word f v ⟨hb, ht⟩ hf hp hlen)

end

/-! ### What reading lines does -/

namespace Reads

variable {cfg : LoaderConfig} {n : Nat} {st st' : LoadState} {ls : List Line}

/-- Blank lines are read and do nothing. -/
theorem of_blank (n : Nat) (st : LoadState) (h : ∀ l ∈ ls, Blank cfg l) : Reads cfg n st ls st := by
  induction ls generalizing n with
  | nil => exact .nil n st
  | cons l ls ih => exact .blank (h l (by simp)) (ih (n + 1) fun k hk => h k (by simp [hk]))

/-- A format once fixed stays. -/
theorem fmt_eq_some (h : Reads cfg n st ls st') {f : Format} (hf : st.fmt = some f) : st'.fmt = some f := by
  induction h with
  | nil => exact hf
  | blank _ _ ih => exact ih hf
  | word g v _ hg _ _ _ ih =>
    obtain ⟨-, hsame⟩ := lineFormat_ok hg
    exact ih (by rw [LoadState.take_fmt, hsame f hf])

/-- Reading a word ends in its format. -/
theorem format_of_take {m : Nat} {f : Format} {v : Int} (h : Reads cfg m (st.take n f v) ls st') : st'.format = f := by
  rw [LoadState.format, h.fmt_eq_some (LoadState.take_fmt st n f v), Option.getD_some]

/-- Every substantive line read has the width of the format. -/
theorem digitLength_eq (h : Reads cfg n st ls st') {k : Line} (hk : k ∈ ls) (hsub : Substantive cfg k) :
    digitLength (trimLine cfg.whitespace k) = st'.format.textWidth := by
  induction h with
  | nil => cases hk
  | blank hb _ ih =>
    rcases List.mem_cons.mp hk with rfl | hk
    · exact absurd hb hsub.1
    · exact ih hk
  | word f v _ hf _ _ h ih =>
    rcases List.mem_cons.mp hk with rfl | hk
    · rw [h.format_of_take]
      exact (lineFormat_ok hf).1
    · exact ih hk

/-- Once a substantive line has been read the format is fixed. -/
theorem fmt_eq_format (h : Reads cfg n st ls st') (hsub : ∃ k ∈ ls, Substantive cfg k) : st'.fmt = some st'.format := by
  induction h with
  | nil => simp at hsub
  | blank hb _ ih =>
    obtain ⟨k, hk, hs⟩ := hsub
    rcases List.mem_cons.mp hk with rfl | hk
    · exact absurd hb hs.1
    · exact ih ⟨k, hk, hs⟩
  | word f v _ _ _ _ h _ => rw [h.format_of_take, h.fmt_eq_some (LoadState.take_fmt _ _ f v)]

/-- Without a substantive line nothing is fixed, accepted or warned about. -/
theorem eq_of_not_substantive (h : Reads cfg n st ls st') (hsub : ¬∃ k ∈ ls, Substantive cfg k) : st' = st := by
  induction h with
  | nil => rfl
  | blank _ _ ih => exact ih fun ⟨k, hk, hs⟩ => hsub ⟨k, by simp [hk], hs⟩
  | word _ _ hl => exact absurd ⟨_, by simp, hl⟩ hsub

/-- No more words are accepted than memory holds. -/
theorem length_words_le (h : Reads cfg n st ls st') (hle : st.words.length ≤ cfg.capacity) :
    st'.words.length ≤ cfg.capacity := by
  induction h with
  | nil => exact hle
  | blank _ _ ih => exact ih hle
  | word f v _ _ _ hlen _ ih =>
    refine ih ?_
    unfold LoadState.take
    split
    · simp only [List.length_append, List.length_singleton]
      omega
    · exact hle

/-- The substantive lines read are words; their in-domain values are accepted and the others warned about, in order. -/
theorem values (h : Reads cfg n st ls st') : ∃ vs : List (Int × Nat),
    List.Forall₂ (fun l v => parseWord (trimLine cfg.whitespace l.1) = some v.1 ∧ v.2 = l.2)
      ((ls.zipIdx n).filter fun p => decide (Substantive cfg p.1)) vs ∧
    st'.words = st.words ++ (vs.filter fun v => inDomain st'.format v.1).map (fun v => v.1) ∧
    st'.warnings = st.warnings ++ (vs.filter fun v => !inDomain st'.format v.1).map fun v => ⟨v.2, v.1⟩ := by
  induction h with
  | nil => exact ⟨[], by simp, by simp, by simp⟩
  | blank hb _ ih =>
    rw [List.zipIdx_cons, List.filter_cons_of_neg (by simp [hb])]
    exact ih
  | @word n st st' l ls f v hl hf hp _ h ih =>
    obtain ⟨vs, hvs, hwords, hwarnings⟩ := ih
    rw [List.zipIdx_cons, List.filter_cons_of_pos (by simp [hl])]
    refine ⟨(v, n) :: vs, .cons ⟨hp, rfl⟩ hvs, ?_, ?_⟩
    · rw [hwords, h.format_of_take]
      by_cases hd : inDomain f v <;> simp [LoadState.take, hd]
    · rw [hwarnings, h.format_of_take]
      by_cases hd : inDomain f v <;> simp [LoadState.take, hd]

end Reads

/-! ### Whole loads -/

/-- A load that succeeds has read the lines before the first terminator, from nothing. -/
theorem reads_of_load_ok {cfg : LoaderConfig} {lines : List Line} {r : Loaded} (h : load cfg lines = .ok r) :
    ∃ st, Reads cfg 1 LoadState.empty (beforeTerminator cfg lines) st ∧ r = finishLoad cfg st :=
  reads_of_loadFrom_ok h

/-- Where lines are read from nothing, a load of them and more goes on behind them. -/
theorem load_append {cfg : LoaderConfig} {ls : List Line} {st : LoadState} (h : Reads cfg 1 LoadState.empty ls st)
    (rest : List Line) : load cfg (ls ++ rest) = loadFrom cfg (ls.length + 1) st rest := by
  rw [Nat.add_comm]
  exact h.loadFrom_append rest

/-- Without a terminator all lines stand before the first one. -/
theorem beforeTerminator_eq_self {cfg : LoaderConfig} {lines : List Line} (h : ∀ l ∈ lines, ¬Terminator cfg l) :
    beforeTerminator cfg lines = lines :=
  List.takeWhile_eq_self_iff.mpr fun l hl => decide_eq_true (h l hl)

/-- The substantive lines of a text stand before its first terminator. -/
theorem substantiveLines_eq (cfg : LoaderConfig) (lines : List Line) : substantiveLines cfg lines =
    ((beforeTerminator cfg lines).zipIdx 1).filter fun p => decide (Substantive cfg p.1) := by
  have hcut : ∀ n, (lines.zipIdx n).takeWhile (fun p => decide (¬Terminator cfg p.1)) =
      (beforeTerminator cfg lines).zipIdx n := by
    unfold beforeTerminator
    induction lines with
    | nil => simp
    | cons l ls ih =>
      intro n
      rw [List.zipIdx_cons, List.takeWhile_cons, List.takeWhile_cons, ih]
      split <;> simp [List.zipIdx_cons]
  rw [substantiveLines, hcut]

/-- Settles O54: the load stops at the terminator with what the lines before it have given, unless one of them ends it. -/
theorem linesAfterATerminatorAreNotRead : Obligations.LinesAfterATerminatorAreNotRead := by
  intro cfg before after l hl
  have h : ∀ n st, loadFrom cfg n st (before ++ l :: after) = loadFrom cfg n st before := by
    induction before with
    | nil => exact fun n st => loadFrom_of_terminator hl
    | cons k ks ih =>
      intro n st
      simp only [List.cons_append, loadFrom, ih]
  exact h 1 LoadState.empty

/-- The image of a load: the words accepted, and 0 after them. -/
theorem finishLoad_image_getElem? {cfg : LoaderConfig} {st : LoadState} {k : Nat} (hk : st.words.length ≤ k)
    (hcap : k < cfg.capacity) : (finishLoad cfg st).image[k]? = some 0 := by
  rw [finishLoad, List.getElem?_append_right hk, List.getElem?_replicate, if_pos (by omega)]

/-- Settles O52: the words accepted are the in-domain values of the substantive lines read, and they fit in memory. -/
theorem loadedImageFitsTheLaunchPremise : Obligations.LoadedImageFitsTheLaunchPremise := by
  intro cfg lines r h
  obtain ⟨st, hreads, rfl⟩ := reads_of_load_ok h
  have hle : st.words.length ≤ cfg.capacity := hreads.length_words_le (Nat.zero_le _)
  obtain ⟨vs, hvs, hwords, hwarnings⟩ := hreads.values
  refine ⟨?_, hle, fun w hw => ?_, fun k => finishLoad_image_getElem?, vs, ?_, ?_, hwarnings⟩
  · simp [finishLoad, hle]
  · rcases List.mem_append.mp hw with hw | hw
    · rw [hwords] at hw
      obtain ⟨v, hv, rfl⟩ := List.mem_map.mp hw
      exact (List.mem_filter.mp hv).2
    · rw [List.eq_of_mem_replicate hw]
      exact inDomain_zero _
  · rw [substantiveLines_eq]
    exact hvs.imp fun l v ⟨hp, hn⟩ => ⟨(parseWord_eq_some_iff _ _).mp hp, hn⟩
  · exact List.take_left.trans hwords

/-- Each element on the right of a relation of lists has a partner on the left. -/
theorem exists_mem_left_of_forall₂ {α β : Type} {R : α → β → Prop} {as : List α} {bs : List β}
    (h : List.Forall₂ R as bs) {b : β} (hb : b ∈ bs) : ∃ a ∈ as, R a b := by
  induction h with
  | nil => cases hb
  | cons hab _ ih =>
    rcases List.mem_cons.mp hb with rfl | hb
    · exact ⟨_, by simp, hab⟩
    · obtain ⟨a, ha, hR⟩ := ih hb
      exact ⟨a, by simp [ha], hR⟩

/-- A warning is of a line of the format's width whose value is out of the domain. -/
theorem Reads.warning {cfg : LoaderConfig} {ls : List Line} {st : LoadState} (h : Reads cfg 1 LoadState.empty ls st)
    {w : OutOfRangeValue} (hw : w ∈ st.warnings) : ¬inDomain st.format w.value ∧
      w.value.natAbs < 10 ^ st.format.textWidth ∧ 1 ≤ w.line ∧ w.line ≤ ls.length := by
  obtain ⟨vs, hvs, -, hwarnings⟩ := h.values
  rw [hwarnings] at hw
  obtain ⟨v, hv, rfl⟩ := List.mem_map.mp hw
  obtain ⟨hv, hd⟩ := List.mem_filter.mp hv
  obtain ⟨⟨l, n⟩, hl, hp, rfl⟩ := exists_mem_left_of_forall₂ hvs hv
  obtain ⟨hl, hsub⟩ := List.mem_filter.mp hl
  obtain ⟨hlo, hhi, hget⟩ := List.mem_zipIdx hl
  have hmem : l ∈ ls := hget ▸ List.getElem_mem _
  refine ⟨by simpa using hd, ?_, hlo, by simp only; omega⟩
  rw [← h.digitLength_eq hmem (of_decide_eq_true hsub)]
  exact parseWord_natAbs_lt hp

/-- Settles O53: four digits always lie in the OLD domain, and six exceed the NEW one from 100000 on. -/
theorem warningsOnlyForSixDigitMagnitudes : Obligations.WarningsOnlyForSixDigitMagnitudes := by
  intro cfg lines r h
  obtain ⟨st, hreads, rfl⟩ := reads_of_load_ok h
  have hlen : (beforeTerminator cfg lines).length ≤ lines.length := (List.takeWhile_prefix _).length_le
  have bound : ∀ w ∈ st.warnings, st.format = .new ∧ 100000 ≤ w.value.natAbs ∧ w.value.natAbs ≤ 999999 ∧
      1 ≤ w.line ∧ w.line ≤ lines.length := by
    intro w hw
    obtain ⟨hd, hlt, hlo, hhi⟩ := hreads.warning hw
    rw [inDomain_iff_natAbs] at hd
    cases hf : st.format with
    | old =>
      rw [hf, Format.old_maxMag] at hd
      rw [hf, Format.old_textWidth] at hlt
      omega
    | new =>
      rw [hf, Format.new_maxMag] at hd
      rw [hf, Format.new_textWidth] at hlt
      exact ⟨rfl, by omega, by omega, hlo, hhi.trans hlen⟩
  refine ⟨fun hold => List.eq_nil_iff_forall_not_mem.mpr fun w hw => ?_, fun w hw => (bound w hw).2⟩
  exact absurd (hold.symm.trans (bound w hw).1) (by decide)

/-! ### The format of a load, and its first error -/

section

variable {n : Nat} {t : Line}

/-- A first substantive line has 4 or 6 digits. -/
theorem exists_lineFormat_none_iff :
    (∃ f, lineFormat n none t = .ok f) ↔ digitLength t = 4 ∨ digitLength t = 6 := by
  simp only [lineFormat, inferFormat, Format.old_textWidth, Format.new_textWidth]
  by_cases h4 : digitLength t = 4
  · simp [h4]
  · by_cases h6 : digitLength t = 6 <;> simp [h4, h6]

/-- A later one has the width of the format. -/
theorem exists_lineFormat_some_iff {f : Format} :
    (∃ g, lineFormat n (some f) t = .ok g) ↔ digitLength t = f.textWidth := by
  by_cases h : digitLength t = f.textWidth <;> simp [lineFormat, h]

/-- Which error the format step raises tells whether a format was fixed before. -/
theorem lineFormat_eq_error {fmt : Option Format} (h : ¬∃ f, lineFormat n fmt t = .ok f) :
    lineFormat n fmt t = .error (if fmt = none then .unrecognizedWordLength n else .mixedWordFormat n) := by
  cases hf : lineFormat n fmt t with
  | ok f => exact absurd ⟨f, hf⟩ h
  | error e =>
    cases fmt with
    | none =>
      simp only [lineFormat] at hf
      split at hf <;> cases hf
      rfl
    | some g =>
      simp only [lineFormat] at hf
      split at hf <;> cases hf
      rfl

end

/-- The format checks of the statements are the model's format step. -/
theorem fitsFormat_iff {cfg : LoaderConfig} {pre : List Line} {st : LoadState}
    (h : Reads cfg 1 LoadState.empty pre st) (n : Nat) (l : Line) :
    FitsFormat cfg pre (finishLoad cfg st) l ↔ ∃ f, lineFormat n st.fmt (trimLine cfg.whitespace l) = .ok f := by
  by_cases hsub : ∃ b ∈ pre, Substantive cfg b
  · rw [h.fmt_eq_format hsub, exists_lineFormat_some_iff]
    exact ⟨fun hfit => hfit.2 hsub, fun hlen => ⟨fun hno => absurd hsub hno, fun _ => hlen⟩⟩
  · obtain rfl := h.eq_of_not_substantive hsub
    exact (⟨fun hfit => hfit.1 hsub, fun hlen => ⟨fun _ => hlen, fun hyes => absurd hyes hsub⟩⟩ :
      _ ↔ _).trans exists_lineFormat_none_iff.symm

/-- A line that fails behind lines that are read ends the load with its error. -/
theorem load_append_of_fail {cfg : LoaderConfig} {pre : List Line} {st : LoadState} {l : Line} {e : LoadError}
    (h : Reads cfg 1 LoadState.empty pre st)
    (hv : lineVerdict cfg (pre.length + 1) st (trimLine cfg.whitespace l) = .fail e) (rest : List Line) :
    load cfg (pre ++ l :: rest) = .error e := by
  rw [load_append h, loadFrom_of_fail hv]

/-- A substantive line that does not pass the format step fails. -/
theorem lineVerdict_of_not_format {cfg : LoaderConfig} {n : Nat} {st : LoadState} {l : Line} (hl : Substantive cfg l)
    (hf : ¬∃ f, lineFormat n st.fmt (trimLine cfg.whitespace l) = .ok f) :
    lineVerdict cfg n st (trimLine cfg.whitespace l) =
      .fail (if st.fmt = none then .unrecognizedWordLength n else .mixedWordFormat n) := by
  rw [lineVerdict_substantive hl.1 hl.2, lineFormat_eq_error hf]

/-- Settles O55: the lines before are blank, so the first substantive line meets a load without a format; the format it
fixes is the one that every line read has the width of. -/
theorem firstSubstantiveLineFixesTheFormat : Obligations.FirstSubstantiveLineFixesTheFormat := by
  refine fun cfg blanks rest l hblank hl => ⟨fun h4 h6 => ?_, fun r h => ?_⟩
  · have hnot : ¬∃ f, lineFormat (blanks.length + 1) none (trimLine cfg.whitespace l) = .ok f := by
      rw [exists_lineFormat_none_iff]
      exact not_or.mpr ⟨h4, h6⟩
    exact load_append_of_fail (Reads.of_blank 1 _ hblank) (lineVerdict_of_not_format hl hnot) rest
  · obtain ⟨st, hreads, rfl⟩ := reads_of_load_ok h
    have hsplit : beforeTerminator cfg (blanks ++ l :: rest) = blanks ++ l :: beforeTerminator cfg rest := by
      rw [beforeTerminator, List.takeWhile_append_of_pos fun b hb => by simp [hblank b hb],
        List.takeWhile_cons_of_pos (by simp [hl])]
      rfl
    rw [hsplit] at hreads
    refine ⟨hreads.digitLength_eq (by simp) hl, fun hterm k hk hsub => ?_⟩
    rw [beforeTerminator_eq_self hterm] at hreads
    exact hreads.digitLength_eq (by simp [hk]) hsub

/-- A load that fails has read the lines before the one its error names. -/
theorem load_error_names_first_failing_line {cfg : LoaderConfig} {lines : List Line} {e : LoadError}
    (h : load cfg lines = .error e) :
    1 ≤ errorLine e ∧ errorLine e ≤ lines.length ∧ (∃ r, load cfg (lines.take (errorLine e - 1)) = .ok r) ∧
      load cfg (lines.take (errorLine e)) = .error e := by
  obtain ⟨pre, l, post, st, rfl, hreads, hv⟩ := reads_of_loadFrom_error h
  have hline : errorLine e = pre.length + 1 := by rw [errorLine_of_lineVerdict hv, Nat.add_comm]
  rw [Nat.add_comm] at hv
  rw [hline]
  refine ⟨Nat.le_add_left 1 _, by simp, ?_, ?_⟩
  · rw [Nat.add_sub_cancel, List.take_left]
    exact ⟨_, hreads.loadFrom_eq⟩
  · rw [List.take_length_add_append]
    exact load_append_of_fail hreads hv []

/-- Settles O56: the load reaches the line with what the lines before it have left, and the checks of R253 then decide, in
their order. -/
theorem loadReportsItsFirstError : Obligations.LoadReportsItsFirstError := by
  refine ⟨fun cfg lines e => load_error_names_first_failing_line, fun cfg pre rest l r hterm hload hl => ?_⟩
  obtain ⟨st, hreads, rfl⟩ := reads_of_load_ok hload
  rw [beforeTerminator_eq_self hterm] at hreads
  have hfits := fitsFormat_iff hreads (pre.length + 1) l
  refine ⟨fun hsub hfit => ?_, fun hsub hfit => ?_, fun hfit hcount => ?_, fun hfit hcount hword => ?_,
    fun hfit hcount hword => ?_⟩
  · have hverdict := lineVerdict_of_not_format hl (mt hfits.mpr hfit)
    rw [if_pos (by rw [hreads.eq_of_not_substantive hsub]; rfl)] at hverdict
    exact load_append_of_fail hreads hverdict rest
  · have hverdict := lineVerdict_of_not_format hl (mt hfits.mpr hfit)
    rw [if_neg (by simp [hreads.fmt_eq_format hsub])] at hverdict
    exact load_append_of_fail hreads hverdict rest
  · obtain ⟨f, hf⟩ := hfits.mp hfit
    refine load_append_of_fail hreads ?_ rest
    rw [lineVerdict_substantive hl.1 hl.2, hf]
    exact if_pos hcount
  · obtain ⟨f, hf⟩ := hfits.mp hfit
    refine load_append_of_fail hreads ?_ rest
    rw [lineVerdict_substantive hl.1 hl.2, hf]
    have hparse : parseWord (trimLine cfg.whitespace l) = none := by
      rw [Option.eq_none_iff_forall_ne_some]
      exact fun v hv => hword ⟨v, (parseWord_eq_some_iff _ _).mp hv⟩
    have hlen : st.words.length ≠ cfg.capacity := hcount
    simp [acceptLine, hlen, hparse]
  · obtain ⟨f, hf⟩ := hfits.mp hfit
    obtain ⟨v, hv⟩ := hword
    have hlast : Reads cfg (pre.length + 1) st [l] (st.take (pre.length + 1) f v) :=
      .word f v hl hf ((parseWord_eq_some_iff _ _).mpr hv) hcount (.nil _ _)
    exact ⟨_, (load_append hreads [l]).trans hlast.loadFrom_eq⟩

/-! ### The empty program -/

/-- Blank lines, with a terminator behind them or not, load as the empty program. -/
theorem load_of_blank {cfg : LoaderConfig} {blanks rest : List Line} (hblank : ∀ b ∈ blanks, Blank cfg b)
    (hrest : rest = [] ∨ ∃ l ls, rest = l :: ls ∧ Terminator cfg l) :
    load cfg (blanks ++ rest) = .ok (finishLoad cfg LoadState.empty) := by
  rw [load_append (Reads.of_blank 1 _ hblank)]
  rcases hrest with rfl | ⟨l, ls, rfl, hl⟩
  · rfl
  · exact loadFrom_of_terminator hl

end Sys2Proof.Machine
end

section
/-! PROOFS of 70_reset_and_hazards.md: launching what was loaded (R254, R257, R258), the state a run starts in
(10_state.md R41), and what a run hands back (60_exceptions.md R212). -/

namespace Sys2Proof.Machine

open Sys2Proof.Claims

/-! ### The start of a run -/

/-- The memory of a start is its image, and 0 behind it. -/
theorem start_mem_read (capacity : Nat) (image : List Int) (fmt : Format) (inputs : List PortEvent) (a : Nat) :
    (State.start capacity image fmt inputs).mem.read a = image[a]?.getD 0 := by
  have h := Memory.read_ofWordsFrom 0 image a
  rwa [Nat.zero_add, List.getD_eq_getElem?_getD] at h

/-- A run starts in the invariant where its image fits in memory and holds words of the format. -/
theorem inv_start {capacity : Nat} {image : List Int} {fmt : Format} (inputs : List PortEvent) (hcap : 1 ≤ capacity)
    (hlen : image.length ≤ capacity) (hdom : ∀ w ∈ image, inDomain fmt w) :
    Inv (State.start capacity image fmt inputs) where
  memory :=
    { canonical := Memory.ofWordsFrom_wfFrom 0 image
      bounded := fun p hp => by
        obtain ⟨-, hlt⟩ := Memory.mem_ofWordsFrom hp
        exact (Nat.zero_add _ ▸ hlt).trans_le hlen
      inDomain := fun a => by
        rw [start_mem_read]
        rcases Nat.lt_or_ge a image.length with ha | ha
        · rw [List.getElem?_eq_getElem ha]
          exact hdom _ (List.getElem_mem ha)
        · rw [List.getElem?_eq_none ha]
          exact inDomain_zero fmt }
  registers := ⟨inDomain_zero fmt, Nat.zero_le _, fun _ _ => hcap⟩
  fault := by simp [FaultOk, State.start, State.reset]
  wait := by simp [WaitOk, State.start, State.reset]
  outInDomain := by simp [State.start, State.reset]

/-- Settles O45: reset is the start of the empty image. -/
theorem resetMeetsTheInvariant : Obligations.ResetMeetsTheInvariant :=
  inv_start [] (capacity := defaultCapacity) (image := []) (fmt := .old) (by decide) (by decide) (by simp)

/-! ### Launching -/

/-- The launch premise, clause by clause. -/
theorem launchPremise_iff (capacity : Nat) (image : List Int) (fmt : Format) :
    launchPremise capacity image fmt = true ↔
      1 ≤ capacity ∧ image.length = capacity ∧ ∀ w ∈ image, inDomain fmt w := by
  simp [launchPremise, and_assoc]

/-- Settles O51: the premise is what decides a launch. -/
theorem launchExactlyUnderThePremise : Obligations.LaunchExactlyUnderThePremise := by
  refine fun capacity image fmt inputs hcap => ⟨fun h => if_pos ?_, fun h => if_neg ?_⟩
  · exact (launchPremise_iff _ _ _).mpr ⟨hcap, h⟩
  · exact fun hp => h ((launchPremise_iff _ _ _).mp hp).2

/-- Settles O50: only an image that meets the premise is launched. -/
theorem launchMeetsTheInvariant : Obligations.LaunchMeetsTheInvariant := by
  intro capacity image fmt inputs s h
  unfold launch at h
  split at h
  · next hp =>
    cases h
    obtain ⟨hcap, hlen, hdom⟩ := (launchPremise_iff _ _ _).mp hp
    exact inv_start inputs hcap hlen.le hdom
  · cases h

/-- A load that succeeds is handed back beside its launch. -/
theorem boot_of_ok {cfg : LoaderConfig} {lines : List Line} {r : Loaded} (h : load cfg lines = .ok r)
    (inputs : List PortEvent) :
    boot cfg lines inputs = .ok { loaded := r, launched := launch cfg.capacity r.image r.fmt inputs } := by
  rw [boot, h]

/-- A load that fails is handed back as its error. -/
theorem boot_of_error {cfg : LoaderConfig} {lines : List Line} {e : LoadError} (h : load cfg lines = .error e)
    (inputs : List PortEvent) : boot cfg lines inputs = .error e := by
  rw [boot, h]

/-- Settles O49: what a load returns meets the launch premise, so its run starts, over an image that is 0 behind the words
accepted. -/
theorem runStartsInTheResetState : Obligations.RunStartsInTheResetState := by
  intro cfg lines inputs r hcap h
  obtain ⟨hlen, hcount, hdom, hzero, -⟩ := loadedImageFitsTheLaunchPremise cfg lines r h
  have hlaunch := (launchExactlyUnderThePremise cfg.capacity r.image r.fmt inputs hcap).1 ⟨hlen, hdom⟩
  refine ⟨State.start cfg.capacity r.image r.fmt inputs, by rw [boot_of_ok h, hlaunch], fun a ha => ?_, fun a ha => ?_,
    rfl, rfl, rfl, rfl, rfl, rfl, rfl, rfl, rfl⟩ <;> rw [start_mem_read]
  · have hlt : a < r.image.length := by omega
    rw [List.getElem?_eq_getElem hlt, Option.getD_some]
  · rcases Nat.lt_or_ge a cfg.capacity with hlt | hge
    · rw [hzero a ha hlt, Option.getD_some]
    · rw [List.getElem?_eq_none (hlen ▸ hge), Option.getD_none]

/-- An enabled step that fetches the word 0 raises InvalidOpcode, with nothing but the address in its record. -/
theorem step_of_zero_word {s : State} (hs : Enabled s) (hword : s.mem.read s.pc = 0) :
    step s = .next { s with
      pc := s.pc + 1, status := .faulted, fault := some ⟨.invalidOpcode, s.pc, 0, 0, 0, .absent⟩ } := by
  have ⟨_, _, hpc⟩ := hs
  have hfields : decode s.fmt (s.mem.read s.pc) = (0, 0) := hword ▸ decode_zero s.fmt
  have hrecord : s.faultRecord s.pc .invalidOpcode .absent = ⟨.invalidOpcode, s.pc, 0, 0, 0, .absent⟩ := by
    simp [State.faultRecord, hword, decode_zero]
  rw [step_of_not_mem_opcodes hs (by rw [hfields]; omega) (by rw [hfields]; decide), hrecord]
  rfl

/-- Settles O57: the image of the empty program is all 0, and the word 0 at address 0 has the undefined opcode 0. -/
theorem emptyProgramFaultsAtOnce : Obligations.EmptyProgramFaultsAtOnce := by
  refine ⟨fun cfg blanks rest hblank hrest => (load_of_blank hblank hrest).trans ?_,
    fun capacity fmt inputs hcap => ?_⟩
  · simp [finishLoad, LoadState.empty]
  · have hword : (State.start capacity (List.replicate capacity 0) fmt inputs).mem.read 0 = 0 := by
      rw [start_mem_read, List.getElem?_replicate, if_pos (Nat.zero_lt_of_lt hcap), Option.getD_some]
    exact step_of_zero_word ⟨rfl, rfl, hcap⟩ hword

/-! ### What `run(lines)` hands back -/

/-- Settles O60: `boot` and `runReport` hand on the load, the launch and the result as they are. -/
theorem runReportsEveryCondition : Obligations.RunReportsEveryCondition := by
  refine ⟨fun cfg lines inputs => ⟨fun e h => ?_, fun r h => ?_⟩, fun r s => ⟨fun hs => ?_, fun hs => ?_⟩⟩
  · exact boot_of_error h inputs
  · exact ⟨_, boot_of_ok h inputs, rfl, rfl⟩
  · rw [runReport, State.result_of_running hs, Option.map_none]
  · rw [runReport, State.result_of_ended hs, Option.map_some]
    exact ⟨_, rfl, rfl, rfl, rfl, rfl, rfl⟩

end Sys2Proof.Machine
end
